-- ==== Sys2Proof/Config.lean ====
section
/-! DEFINITION. The parameters of 00_scope.md rule R4 as named constants (R7, decision D21: a literal
of the source is unaudited, so each stands here once). The widths and counts that types are built from
are `abbrev`s, so that lemmas about `BitVec 32` and `Vector` apply. The core draws no free value
(93_implementation_defined.md), so nothing here is opaque. `IMEM` and `FUEL` are arguments of a run. -/

namespace Sys2Proof

/-- `XLEN`: register and data word width. -/
abbrev Config.xlen : Nat := 32

/-- `PC_WIDTH`: the program counter's width. -/
abbrev Config.pcWidth : Nat := 32

/-- `ILEN`: instruction length in bits, one length only. -/
abbrev Config.ilen : Nat := 32

/-- `NREGS`: number of general registers. -/
abbrev Config.nregs : Nat := 32

/-- `DATA_WORDS`: number of word slots of the data region. -/
abbrev Config.dataWords : Nat := 32

/-- `INSTR_SLOT`: address step per instruction. -/
abbrev Config.instrSlot : Nat := 4

/-- `RESET_PC`. -/
def Config.resetPc : BitVec Config.pcWidth := 0#32

/-- `SP_INDEX`: the register whose reset value is not zero. -/
def Config.spIndex : Nat := 2

/-- `SP_INIT`: 380. -/
def Config.spInit : BitVec Config.xlen := 380#32

/-- `DATA_BASE`. -/
def Config.dataBase : Nat := 0x00010000

/-- `DATA_LAST`, inclusive: `DATA_BASE + 4 * (DATA_WORDS - 1)`. -/
def Config.dataLast : Nat := 0x0001007C

/-- `HALT_WORD`: the halt sentinel. -/
def Config.haltWord : BitVec Config.ilen := 0x00000063#32

/-- `SLT_SIGNED`. DESIGN CHOICE of the spec (decision D7, conflict C5), log entry 10: unsafe where the
operands' bits 31 differ. -/
def Config.sltSigned : Bool := false

/-- `ASM_FAIL_POLICY`, OPEN in the spec (decision D15): what an assembly does with an instruction that
fails to encode. An argument of the assembler, never fixed by the model (log entry 20). -/
inductive AsmFailPolicy where
  /-- the reference's documented behaviour: report, omit the line, continue (R90, R92) -/
  | omitLine
  /-- no output at all when anything failed -/
  | abort
  /-- put the given word in the failed instruction's slot -/
  | placeholder (w : BitVec Config.ilen)
  deriving DecidableEq, Repr

end Sys2Proof
end

