-- ==== Sys2Proof/Word.lean ====
section
/-! DEFINITION. The words of the machine and the register index, and the two readings of a word as an
integer (00_scope.md, notation: `u32` and `s32`). -/

namespace Sys2Proof

/-- A register's or a memory cell's word, and an address of the data space (R4, `XLEN`). -/
abbrev Word := BitVec Config.xlen

/-- The program counter's word (R4, `PC_WIDTH`). -/
abbrev PcWord := BitVec Config.pcWidth

/-- An instruction word (R4, `ILEN`; R50). -/
abbrev InstrWord := BitVec Config.ilen

/-- A register index, the 5-bit content of a field `rd`, `rs1` or `rs2` (R11, R51). -/
abbrev Reg := BitVec 5

/-- `u32(v) = v mod 2^32` for any integer `v`, negative ones included (00_scope.md, notation). -/
def u32 (v : Int) : Word := BitVec.ofInt Config.xlen v

/-- `s32(v)`: the word as a signed integer (00_scope.md, notation). -/
def s32 (w : Word) : Int := if w.toNat < 2 ^ 31 then w.toNat else (w.toNat : Int) - 2 ^ 32

end Sys2Proof
end

