-- ==== Sys2Proof/Machine/Flags.lean ====
section
/-! DEFINITION. The comparisons. The core has no flags and no condition codes (10_state.md R22): `beq`
and `bne` compare two registers in the instruction itself and `slt` writes its result to a register. -/

namespace Sys2Proof.Machine

/-- The comparison of `slt` for either value of `SLT_SIGNED` (40_r_type_alu.md R105; decision D7, log
entry 10): the stored unsigned values, or the values read as signed. -/
def sltLess (signed : Bool) (a b : Word) : Bool :=
  if signed then decide (s32 a < s32 b) else decide (a.toNat < b.toNat)

/-- The result of `slt`: exactly 0 or 1 in all 32 bits (R105). -/
def sltResult (signed : Bool) (a b : Word) : Int := if sltLess signed a b then 1 else 0

/-- The condition of `beq`: equality of the two stored values (43_branch.md R130). -/
def equalRegs (a b : Word) : Bool := a == b

end Sys2Proof.Machine
end

