-- ==== Sys2Proof/Syntax.lean ====
section
/-! DEFINITION. The instructions, one constructor per row of opcode_table.json in the table's order, and
the spec's decoded record (30_encoding.md rule R73, 00_scope.md rule R5). -/

namespace Sys2Proof

/-- One constructor per row of the opcode table. Immediates are kept as the field's bits: 12 bits for I
and S (R57, R58), 13 for B (R59) and 21 for J (R60), the last two with the implicit bit 0. -/
inductive Instr where
  /-- the halt sentinel `0x00000063` (R150) -/
  | halt
  /-- R101 -/
  | add (rd rs1 rs2 : Reg)
  /-- R102 -/
  | sub (rd rs1 rs2 : Reg)
  /-- R103 -/
  | or (rd rs1 rs2 : Reg)
  /-- R104 -/
  | srl (rd rs1 rs2 : Reg)
  /-- R105 -/
  | slt (rd rs1 rs2 : Reg)
  /-- R106 -/
  | and (rd rs1 rs2 : Reg)
  /-- R110 -/
  | addi (rd rs1 : Reg) (imm : BitVec 12)
  /-- R120 -/
  | lw (rd rs1 : Reg) (imm : BitVec 12)
  /-- R121 -/
  | sw (rs1 rs2 : Reg) (imm : BitVec 12)
  /-- R130 -/
  | beq (rs1 rs2 : Reg) (offset : BitVec 13)
  /-- R131 -/
  | bne (rs1 rs2 : Reg) (offset : BitVec 13)
  /-- R140 -/
  | jal (rd : Reg) (offset : BitVec 21)
  /-- R141; `funct3` is carried and not tested (R69) -/
  | jalr (funct3 : BitVec 3) (rd rs1 : Reg) (imm : BitVec 12)
  /-- the assembler's `xor` word, not executed (R153) -/
  | xor (rd rs1 rs2 : Reg)
  /-- the assembler's `blt` word, not executed (R133) -/
  | blt (rs1 rs2 : Reg) (offset : BitVec 13)
  /-- the assembler's `bge` word, not executed (R133) -/
  | bge (rs1 rs2 : Reg) (offset : BitVec 13)
  /-- the assembler's `bltu` word, not executed (R133) -/
  | bltu (rs1 rs2 : Reg) (offset : BitVec 13)
  /-- every other word (R151), the table's `(unsupported)` -/
  | unsupported (word : InstrWord)
  deriving DecidableEq, Repr

/-- The operations of the decoder's result (00_scope.md R5). -/
inductive Op where
  | HALT | ADD | SUB | OR | SRL | SLT | AND | ADDI | LW | SW | BEQ | BNE | JAL | JALR | UNSUPPORTED
  deriving DecidableEq, Repr

/-- The formats (30_encoding.md R52 to R56). -/
inductive Format where
  | R | I | S | B | J
  deriving DecidableEq, Repr

/-- The decoder's result record `{op, rd, rs1, rs2, imm}` (30_encoding.md R73); `imm` is the
mathematical integer of R57 to R60, 0 where the format has none. -/
structure Decoded where
  op  : Op
  rd  : Reg
  rs1 : Reg
  rs2 : Reg
  imm : Int
  deriving DecidableEq, Repr

end Sys2Proof
end

