-- ==== Sys2Proof/Decode.lean ====
section
/-! DEFINITION. Field extraction, the decode dispatch (30_encoding.md rules R51 and R57 to R73), field
placement and the encoder (rules R52 to R56). -/

namespace Sys2Proof

/-! ### Fields (R51) -/

/-- `w[6:0]` -/
def fieldOpcode (w : InstrWord) : BitVec 7 := w.extractLsb' 0 7
/-- `w[11:7]` -/
def fieldRd (w : InstrWord) : Reg := w.extractLsb' 7 5
/-- `w[14:12]` -/
def fieldFunct3 (w : InstrWord) : BitVec 3 := w.extractLsb' 12 3
/-- `w[19:15]` -/
def fieldRs1 (w : InstrWord) : Reg := w.extractLsb' 15 5
/-- `w[24:20]` -/
def fieldRs2 (w : InstrWord) : Reg := w.extractLsb' 20 5
/-- `w[31:25]` -/
def fieldFunct7 (w : InstrWord) : BitVec 7 := w.extractLsb' 25 7

/-! ### Immediate fields (R57 to R60) -/

/-- `w[31:20]`, the bits of `imm_I` (R57). -/
def bitsImmI (w : InstrWord) : BitVec 12 := w.extractLsb' 20 12
/-- `w[31:25] || w[11:7]`, the bits of `imm_S` (R58). -/
def bitsImmS (w : InstrWord) : BitVec 12 := w.extractLsb' 25 7 ++ w.extractLsb' 7 5
/-- `w[31] || w[7] || w[30:25] || w[11:8] || 0`, the bits of `imm_B` (R59). -/
def bitsImmB (w : InstrWord) : BitVec 13 :=
  w.extractLsb' 31 1 ++ w.extractLsb' 7 1 ++ w.extractLsb' 25 6 ++ w.extractLsb' 8 4 ++ 0#1
/-- `w[31] || w[19:12] || w[20] || w[30:21] || 0`, the bits of `imm_J` (R60). -/
def bitsImmJ (w : InstrWord) : BitVec 21 :=
  w.extractLsb' 31 1 ++ w.extractLsb' 12 8 ++ w.extractLsb' 20 1 ++ w.extractLsb' 21 10 ++ 0#1

/-- `sext_N(v)` (R9): `v - 2^N` when bit `N-1` of `v` is set, `v` otherwise. -/
def sext {n : Nat} (v : BitVec n) : Int :=
  if v.toNat.testBit (n - 1) then (v.toNat : Int) - 2 ^ n else v.toNat

/-! ### Opcodes (R62) -/

/-- `0110011`, register-register ALU -/
def opcodeAlu : BitVec 7 := 0b0110011#7
/-- `0010011`, immediate ALU -/
def opcodeAluImm : BitVec 7 := 0b0010011#7
/-- `0000011`, load -/
def opcodeLoad : BitVec 7 := 0b0000011#7
/-- `0100011`, store -/
def opcodeStore : BitVec 7 := 0b0100011#7
/-- `1100011`, branch -/
def opcodeBranch : BitVec 7 := 0b1100011#7
/-- `1101111`, `jal` -/
def opcodeJal : BitVec 7 := 0b1101111#7
/-- `1100111`, `jalr` -/
def opcodeJalr : BitVec 7 := 0b1100111#7

/-! ### Decode -/

/-- Opcode `0110011`: both function fields must match exactly (R63). The pair (`100`, `0000000`) is the
table's `xor` row, whose step is fatal (R153). -/
def decodeAlu (w : InstrWord) : Instr :=
  let f3 := fieldFunct3 w
  let f7 := fieldFunct7 w
  if f7 = 0b0000000#7 then
    if f3 = 0b000#3 then .add (fieldRd w) (fieldRs1 w) (fieldRs2 w)
    else if f3 = 0b110#3 then .or (fieldRd w) (fieldRs1 w) (fieldRs2 w)
    else if f3 = 0b101#3 then .srl (fieldRd w) (fieldRs1 w) (fieldRs2 w)
    else if f3 = 0b010#3 then .slt (fieldRd w) (fieldRs1 w) (fieldRs2 w)
    else if f3 = 0b111#3 then .and (fieldRd w) (fieldRs1 w) (fieldRs2 w)
    else if f3 = 0b100#3 then .xor (fieldRd w) (fieldRs1 w) (fieldRs2 w)
    else .unsupported w
  else if f7 = 0b0100000#7 then
    if f3 = 0b000#3 then .sub (fieldRd w) (fieldRs1 w) (fieldRs2 w)
    else .unsupported w
  else .unsupported w

/-- Opcode `0010011`: only `funct3 = 000` (R64). -/
def decodeAluImm (w : InstrWord) : Instr :=
  if fieldFunct3 w = 0b000#3 then .addi (fieldRd w) (fieldRs1 w) (bitsImmI w) else .unsupported w

/-- Opcode `0000011`: only `funct3 = 010` (R65). -/
def decodeLoad (w : InstrWord) : Instr :=
  if fieldFunct3 w = 0b010#3 then .lw (fieldRd w) (fieldRs1 w) (bitsImmI w) else .unsupported w

/-- Opcode `0100011`: only `funct3 = 010` (R66). -/
def decodeStore (w : InstrWord) : Instr :=
  if fieldFunct3 w = 0b010#3 then .sw (fieldRs1 w) (fieldRs2 w) (bitsImmS w) else .unsupported w

/-- Opcode `1100011`, for a word that is not the halt sentinel (R67). The values `100`, `101`, `110` are
the table's `blt`, `bge`, `bltu` rows, whose step is fatal (R133). -/
def decodeBranch (w : InstrWord) : Instr :=
  let f3 := fieldFunct3 w
  if f3 = 0b000#3 then .beq (fieldRs1 w) (fieldRs2 w) (bitsImmB w)
  else if f3 = 0b001#3 then .bne (fieldRs1 w) (fieldRs2 w) (bitsImmB w)
  else if f3 = 0b100#3 then .blt (fieldRs1 w) (fieldRs2 w) (bitsImmB w)
  else if f3 = 0b101#3 then .bge (fieldRs1 w) (fieldRs2 w) (bitsImmB w)
  else if f3 = 0b110#3 then .bltu (fieldRs1 w) (fieldRs2 w) (bitsImmB w)
  else .unsupported w

/-- `Decode(w)`, total on all words (R61, R62, R73): the whole-word test for the halt sentinel comes
first, then the opcode selects. `funct3` of `jalr` is not tested (R69; log entry 9). -/
def decode (w : InstrWord) : Instr :=
  if w = Config.haltWord then .halt
  else if fieldOpcode w = opcodeAlu then decodeAlu w
  else if fieldOpcode w = opcodeAluImm then decodeAluImm w
  else if fieldOpcode w = opcodeLoad then decodeLoad w
  else if fieldOpcode w = opcodeStore then decodeStore w
  else if fieldOpcode w = opcodeBranch then decodeBranch w
  else if fieldOpcode w = opcodeJal then .jal (fieldRd w) (bitsImmJ w)
  else if fieldOpcode w = opcodeJalr then .jalr (fieldFunct3 w) (fieldRd w) (fieldRs1 w) (bitsImmI w)
  else .unsupported w

/-! ### The spec's decoded record (R73) -/

/-- The operation of an instruction; the four assembler-only rows and every illegal word are
`UNSUPPORTED` (R70, R133, R153). -/
def Instr.op : Instr → Op
  | .halt => .HALT
  | .add .. => .ADD
  | .sub .. => .SUB
  | .or .. => .OR
  | .srl .. => .SRL
  | .slt .. => .SLT
  | .and .. => .AND
  | .addi .. => .ADDI
  | .lw .. => .LW
  | .sw .. => .SW
  | .beq .. => .BEQ
  | .bne .. => .BNE
  | .jal .. => .JAL
  | .jalr .. => .JALR
  | .xor .. => .UNSUPPORTED
  | .blt .. => .UNSUPPORTED
  | .bge .. => .UNSUPPORTED
  | .bltu .. => .UNSUPPORTED
  | .unsupported _ => .UNSUPPORTED

/-- The format an opcode selects, none for an undecoded one (R62). -/
def formatOf (opcode : BitVec 7) : Option Format :=
  if opcode = opcodeAlu then some .R
  else if opcode = opcodeAluImm then some .I
  else if opcode = opcodeLoad then some .I
  else if opcode = opcodeStore then some .S
  else if opcode = opcodeBranch then some .B
  else if opcode = opcodeJal then some .J
  else if opcode = opcodeJalr then some .I
  else none

/-- The format's immediate as an integer, 0 for R-format (R57 to R60, R73). The format is the opcode's, so
an unsupported word of a decoded opcode has its format's immediate too. A word whose opcode selects no
format gets 0: DESIGN CHOICE, the spec gives none, log entry 34. -/
def immOf (w : InstrWord) : Int :=
  match formatOf (fieldOpcode w) with
  | some .I => sext (bitsImmI w)
  | some .S => sext (bitsImmS w)
  | some .B => sext (bitsImmB w)
  | some .J => sext (bitsImmJ w)
  | some .R => 0
  | none => 0

/-- `Decode(w)` as the record of R73: the register fields are taken from the fixed positions of R51
whatever the format. -/
def decodeRecord (w : InstrWord) : Decoded :=
  { op := (decode w).op, rd := fieldRd w, rs1 := fieldRs1 w, rs2 := fieldRs2 w,
    imm := immOf w }

/-! ### Field placement (R52 to R56) -/

/-- R-format (R52). -/
def placeR (funct7 : BitVec 7) (rs2 rs1 : Reg) (funct3 : BitVec 3) (rd : Reg) (opcode : BitVec 7) : InstrWord :=
  funct7 ++ rs2 ++ rs1 ++ funct3 ++ rd ++ opcode

/-- I-format (R53). -/
def placeI (imm : BitVec 12) (rs1 : Reg) (funct3 : BitVec 3) (rd : Reg) (opcode : BitVec 7) : InstrWord :=
  imm ++ rs1 ++ funct3 ++ rd ++ opcode

/-- S-format (R54): the immediate is split into its high 7 and low 5 bits. -/
def placeS (imm : BitVec 12) (rs2 rs1 : Reg) (funct3 : BitVec 3) (opcode : BitVec 7) : InstrWord :=
  imm.extractLsb' 5 7 ++ rs2 ++ rs1 ++ funct3 ++ imm.extractLsb' 0 5 ++ opcode

/-- B-format (R55): bit 0 of the 13-bit immediate has no place in the word. -/
def placeB (imm : BitVec 13) (rs2 rs1 : Reg) (funct3 : BitVec 3) (opcode : BitVec 7) : InstrWord :=
  imm.extractLsb' 12 1 ++ imm.extractLsb' 5 6 ++ rs2 ++ rs1 ++ funct3 ++ imm.extractLsb' 1 4
    ++ imm.extractLsb' 11 1 ++ opcode

/-- J-format (R56): bit 0 of the 21-bit immediate has no place in the word. -/
def placeJ (imm : BitVec 21) (rd : Reg) (opcode : BitVec 7) : InstrWord :=
  imm.extractLsb' 20 1 ++ imm.extractLsb' 1 10 ++ imm.extractLsb' 11 1 ++ imm.extractLsb' 12 8 ++ rd ++ opcode

/-! ### The encoder -/

/-- The word of an instruction, from the encodings of the instructions' own rules. The function fields
of `xor`, `bge` and `bltu` are PRESUMED (R83: general knowledge; log entry 16). -/
def encode : Instr → InstrWord
  | .halt => Config.haltWord
  | .add rd rs1 rs2 => placeR 0b0000000#7 rs2 rs1 0b000#3 rd opcodeAlu
  | .sub rd rs1 rs2 => placeR 0b0100000#7 rs2 rs1 0b000#3 rd opcodeAlu
  | .or rd rs1 rs2 => placeR 0b0000000#7 rs2 rs1 0b110#3 rd opcodeAlu
  | .srl rd rs1 rs2 => placeR 0b0000000#7 rs2 rs1 0b101#3 rd opcodeAlu
  | .slt rd rs1 rs2 => placeR 0b0000000#7 rs2 rs1 0b010#3 rd opcodeAlu
  | .and rd rs1 rs2 => placeR 0b0000000#7 rs2 rs1 0b111#3 rd opcodeAlu
  | .addi rd rs1 imm => placeI imm rs1 0b000#3 rd opcodeAluImm
  | .lw rd rs1 imm => placeI imm rs1 0b010#3 rd opcodeLoad
  | .sw rs1 rs2 imm => placeS imm rs2 rs1 0b010#3 opcodeStore
  | .beq rs1 rs2 offset => placeB offset rs2 rs1 0b000#3 opcodeBranch
  | .bne rs1 rs2 offset => placeB offset rs2 rs1 0b001#3 opcodeBranch
  | .jal rd offset => placeJ offset rd opcodeJal
  | .jalr funct3 rd rs1 imm => placeI imm rs1 funct3 rd opcodeJalr
  | .xor rd rs1 rs2 => placeR 0b0000000#7 rs2 rs1 0b100#3 rd opcodeAlu
  | .blt rs1 rs2 offset => placeB offset rs2 rs1 0b100#3 opcodeBranch
  | .bge rs1 rs2 offset => placeB offset rs2 rs1 0b101#3 opcodeBranch
  | .bltu rs1 rs2 offset => placeB offset rs2 rs1 0b110#3 opcodeBranch
  | .unsupported word => word

/-! ### The table's match and mask (opcode_table.json) -/

/-- Mask and match of an instruction's row in the opcode table. -/
def Instr.tableRow : Instr → InstrWord × InstrWord
  | .halt => (0xFFFFFFFF#32, 0x00000063#32)
  | .add .. => (0xFE00707F#32, 0x00000033#32)
  | .sub .. => (0xFE00707F#32, 0x40000033#32)
  | .or .. => (0xFE00707F#32, 0x00006033#32)
  | .srl .. => (0xFE00707F#32, 0x00005033#32)
  | .slt .. => (0xFE00707F#32, 0x00002033#32)
  | .and .. => (0xFE00707F#32, 0x00007033#32)
  | .addi .. => (0x0000707F#32, 0x00000013#32)
  | .lw .. => (0x0000707F#32, 0x00002003#32)
  | .sw .. => (0x0000707F#32, 0x00002023#32)
  | .beq .. => (0x0000707F#32, 0x00000063#32)
  | .bne .. => (0x0000707F#32, 0x00001063#32)
  | .jal .. => (0x0000007F#32, 0x0000006F#32)
  | .jalr .. => (0x0000007F#32, 0x00000067#32)
  | .xor .. => (0xFE00707F#32, 0x00004033#32)
  | .blt .. => (0x0000707F#32, 0x00004063#32)
  | .bge .. => (0x0000707F#32, 0x00005063#32)
  | .bltu .. => (0x0000707F#32, 0x00006063#32)
  | .unsupported _ => (0x00000000#32, 0x00000000#32)

/-! ### The host's reading of a table word -/

/-- A fetched word from its bits as the table numbers them: bit 0 is the word's least significant bit,
and bits at or above `nbits` are 0. Every instruction is one 32-bit word and the core has no byte order
(R50, 20_memory.md R42). -/
def tableWord (nbits w : Nat) : InstrWord := BitVec.ofNat Config.ilen (w % 2 ^ nbits)

/-- The instruction the decoder reads from a table word. The decoder is total, so it refuses no word of
32 bits; a longer instruction does not exist (R50). -/
def decodeTableWord (nbits w : Nat) : Option Instr :=
  if nbits ≤ Config.ilen then some (decode (tableWord nbits w)) else none

end Sys2Proof
end

