-- ==== Sys2Proof/Machine/State.lean ====
section
/-! DEFINITION. The architectural state (10_state.md rules R10 to R32), the reasons a step can stop, and
the state after reset. -/

namespace Sys2Proof.Machine

/-- Why a run ended without error (R20, R150, R154). -/
inductive HaltCause where
  /-- the fetched word was the halt sentinel -/
  | sentinel
  /-- the fetch index was outside the instruction store -/
  | fetchOutOfRange
  deriving DecidableEq, Repr

/-- The source's four error kinds (60_exceptions.md R160). The core raises only the first. -/
inductive ErrorKind where
  /-- raised by the core's decoder (R161) -/
  | unsupportedInstruction
  /-- raised by the loader before the run (R163) -/
  | formatError
  /-- raised by the collaborator layer before the run (R163); out of scope by R3, named only -/
  | ioError
  /-- raised by the assembler, not fatal (R164) -/
  | parseError
  deriving DecidableEq, Repr

/-- The run status (R20). -/
inductive Status where
  | running
  | halted (cause : HaltCause)
  | fatal (kind : ErrorKind) (addr : PcWord)
  deriving DecidableEq, Repr

/-- One trace entry: the snapshot `(pc, x[0], ..., x[31])` (R30). -/
structure Snapshot where
  pc   : PcWord
  regs : Vector Word Config.nregs
  deriving DecidableEq, Repr

/-- The data space (R26): the 32 slots of the data region (R27) and the sparse stack region (R28), a list
of cells `(address, word)` with rising addresses and no zero word. Cells hold whole words, not bytes
(20_memory.md R40, R42; log entry 12). -/
structure Memory where
  data  : Vector Word Config.dataWords
  stack : List (Nat × Word)
  deriving DecidableEq, Repr

/-- The whole state (R10), with the instruction store, an input of the run that nothing writes (R23;
log entry 1). Slot 0 of `regs` is reached through `readReg` and `writeReg` only (R12, R13). -/
structure State where
  regs   : Vector Word Config.nregs
  pc     : PcWord
  status : Status
  mem    : Memory
  trace  : List Snapshot
  imem   : List InstrWord
  deriving DecidableEq, Repr

/-- The situations the source gives no behaviour (60_exceptions.md R165). Both are SAFE: the model stops
where the repository's code may go on, so no false claim can be proved. -/
inductive Fault where
  /-- `Unspecified(MisalignedPc)`: raised by the fetch when `pc mod 4` is not 0 (R18, decision D4). Safe. -/
  | misalignedPc
  /-- `Unspecified(MisalignedDataRegionAccess)`: raised by `lw` and `sw` for an address in
  `0x00010000` to `0x0001007C` that is no multiple of 4 (20_memory.md R41, decision D5). Safe. -/
  | misalignedDataRegionAccess
  deriving DecidableEq, Repr

/-- Refusals. No step of this model refuses: every row of the table has its meaning. -/
inductive Refusal where
  /-- an instruction that has no meaning yet, by its mnemonic; raised by no arm. Safe. -/
  | notModelled (mnemonic : String)
  deriving DecidableEq, Repr

/-- The data space after reset: every slot 0, the stack region empty (R32). -/
def Memory.reset : Memory := { data := Vector.replicate Config.dataWords 0#32, stack := [] }

/-- The machine right after reset (R32, 70_reset_and_hazards.md R190): `x[2] = 380`, everything else 0,
status `Running`, trace empty. The instruction store is not reset; it is empty until a program is
supplied (log entry 1). -/
def State.reset : State :=
  { regs   := (Vector.replicate Config.nregs 0#32).set Config.spIndex Config.spInit (by decide)
    pc     := Config.resetPc
    status := .running
    mem    := Memory.reset
    trace  := []
    imem   := [] }

end Sys2Proof.Machine
end

