-- ==== Sys2Proof/Machine/Ops.lean ====
section
/-! DEFINITION. The named operations over registers, memory, trace, status and instruction store. Every
meaning is written over these and touches no field of the state itself. -/

namespace Sys2Proof.Machine

/-! ### Registers -/

/-- Register read (10_state.md R12): index 0 reads 0. -/
def State.readReg (s : State) (i : Reg) : Word :=
  if i = 0#5 then 0#32 else s.regs[i.toNat]'(i.isLt)

/-- Register write: nothing for index 0 (R13), otherwise `u32(v)` is stored (R14; decision D1, log
entry 4). -/
def State.writeReg (s : State) (i : Reg) (v : Int) : State :=
  if i = 0#5 then s else { s with regs := s.regs.set i.toNat (u32 v) i.isLt }

/-! ### Memory -/

/-- Where the routing rule sends an address (20_memory.md R36, R44). -/
inductive Route where
  /-- slot `k` of the data region -/
  | data (k : Fin Config.dataWords)
  /-- inside the data region's range and not a multiple of 4 -/
  | misaligned
  /-- the stack-region cell of that key -/
  | stack (key : Nat)
  deriving DecidableEq, Repr

/-- The range test of the routing rule, both bounds inclusive (R36). -/
def inDataRange (a : Nat) : Bool := Config.dataBase ≤ a && a ≤ Config.dataLast

/-- The memory routing rule (R36) with the alignment test of R41 (decision D5, log entry 8). -/
def route (addr : Word) : Route :=
  if inDataRange addr.toNat then
    if addr.toNat % 4 = 0 then .data (Fin.ofNat Config.dataWords ((addr.toNat - Config.dataBase) / 4)) else .misaligned
  else .stack addr.toNat

/-- A cell of the sparse stack region, 0 where no entry stands (R28). -/
def stackRead : List (Nat × Word) → Nat → Word
  | [], _ => 0#32
  | (k, v) :: cells, a => if k = a then v else stackRead cells a

/-- Stores a word at a key, keeping the canonical form: writing 0 removes the entry, since an unset entry
and an entry holding 0 are the same (R25). -/
def stackWrite : List (Nat × Word) → Nat → Word → List (Nat × Word)
  | [], a, v => if v = 0#32 then [] else [(a, v)]
  | (k, x) :: cells, a, v =>
    if k < a then (k, x) :: stackWrite cells a v
    else if k = a then (if v = 0#32 then cells else (a, v) :: cells)
    else (if v = 0#32 then (k, x) :: cells else (a, v) :: (k, x) :: cells)

/-- The canonical form of the data space: the stack region's keys rise strictly, no entry holds 0, and
every key is a 32-bit address outside the data region's range. -/
abbrev Memory.wf (m : Memory) : Prop :=
  m.stack.Pairwise (fun c d => c.1 < d.1) ∧
    ∀ c ∈ m.stack, c.2 ≠ 0#32 ∧ c.1 < 2 ^ 32 ∧ inDataRange c.1 = false

/-- `MemRead(addr, 4)` (R37). -/
def Memory.read (m : Memory) (addr : Word) : Except Fault Word :=
  match route addr with
  | .data k => .ok m.data[k]
  | .misaligned => .error .misalignedDataRegionAccess
  | .stack key => .ok (stackRead m.stack key)

/-- `MemWrite(addr, 4, v)` (R38): stores `u32(v)` and changes nothing else. -/
def Memory.write (m : Memory) (addr : Word) (v : Int) : Except Fault Memory :=
  match route addr with
  | .data k => .ok { m with data := m.data.set k.val (u32 v) k.isLt }
  | .misaligned => .error .misalignedDataRegionAccess
  | .stack key => .ok { m with stack := stackWrite m.stack key (u32 v) }

/-- The state with another data space. -/
def State.withMem (s : State) (m : Memory) : State := { s with mem := m }

/-! ### Trace and commit -/

/-- The snapshot `(pc, x[0..31])` of a state; `x[0]` is 0 in it (R30). -/
def State.snapshot (s : State) : Snapshot :=
  { pc := s.pc, regs := Vector.ofFn fun i => s.readReg (BitVec.ofFin i) }

/-- `trace_append()` (R30). -/
def State.appendTrace (s : State) : State := { s with trace := s.trace ++ [s.snapshot] }

/-- `pc <- u32(t)` (R19; decision D2, log entry 5). -/
def State.setPc (s : State) (t : Int) : State := { s with pc := u32 t }

/-- The commit of a completed step: the new `pc`, then the trace entry of the post-step state
(70_reset_and_hazards.md R193). -/
def State.commit (s : State) (nextPc : Int) : State := (s.setPc nextPc).appendTrace

/-- The address of the next instruction in the store, before reduction: `pc + 4` (R19). -/
def State.pcNext (s : State) : Int := (s.pc.toNat : Int) + Config.instrSlot

/-! ### Ends of a run -/

/-- The run ends without error (R20). -/
def State.halt (s : State) (cause : HaltCause) : State := { s with status := .halted cause }

/-- Fatal entry, the core's only exception (60_exceptions.md R168): the status records the kind and the
address of the failing instruction; registers, `pc`, memory and trace keep their values. Nothing returns
from it (R171). -/
def State.takeFatal (s : State) (kind : ErrorKind) : State := { s with status := .fatal kind s.pc }

/-! ### Fetch -/

/-- The result of a fetch (R18, R23). -/
inductive FetchResult where
  | misaligned
  | outOfRange
  | word (w : InstrWord)
  deriving DecidableEq, Repr

/-- `Fetch(pc)` with the alignment test that must come first (R18, R23, 60_exceptions.md R167). -/
def State.fetch (s : State) : FetchResult :=
  if s.pc.toNat % Config.instrSlot = 0 then
    match s.imem[s.pc.toNat / Config.instrSlot]? with
    | some w => .word w
    | none => .outOfRange
  else .misaligned

/-! ### The instruction store -/

/-- Supplying a program and resetting (70_reset_and_hazards.md R190): the reset state with the given
instruction store. -/
def State.boot (program : List InstrWord) : State := { State.reset with imem := program }

/-- An instruction store with word `w` at index `i`; a shorter store is first filled up with zero words
(which are unsupported words, R70). -/
def placeWord : List InstrWord → Nat → InstrWord → List InstrWord
  | [], 0, w => [w]
  | _ :: ws, 0, w => w :: ws
  | [], i + 1, w => 0#32 :: placeWord [] i w
  | x :: ws, i + 1, w => x :: placeWord ws i w

/-- The state with word `w` standing where the next fetch reads. -/
def State.placeFetched (s : State) (w : InstrWord) : State :=
  { s with imem := placeWord s.imem (s.pc.toNat / Config.instrSlot) w }

end Sys2Proof.Machine
end

