-- ==== Sys2Proof/Machine/Operands.lean ====
section
/-! DEFINITION. The operand forms: source registers as integers, the effective address, and the targets
of branches and jumps. -/

namespace Sys2Proof.Machine

/-- A source register's stored unsigned value as an integer (10_state.md R11). -/
def State.regVal (s : State) (i : Reg) : Int := (s.readReg i).toNat

/-- Base register plus signed displacement, reduced modulo `2^32` before routing (20_memory.md R43;
decision D3, log entry 6). -/
def State.effectiveAddress (s : State) (rs1 : Reg) (imm : BitVec 12) : Word :=
  u32 (s.regVal rs1 + sext imm)

/-- The target of a taken branch or of `jal`, relative to the instruction's own address, before reduction
(43_branch.md R130, 44_jump.md R140). -/
def State.relativeTarget {n : Nat} (s : State) (offset : BitVec n) : Int :=
  (s.pc.toNat : Int) + sext offset

/-- The target of `jalr`: the sum reduced modulo `2^32`, then bit 0 forced to 0; bit 1 is kept
(44_jump.md R141). -/
def State.indirectTarget (s : State) (rs1 : Reg) (imm : BitVec 12) : Word :=
  u32 (s.regVal rs1 + sext imm) &&& 0xFFFFFFFE#32

/-- The shift amount of `srl`: the low 5 bits of the value (40_r_type_alu.md R104). -/
def shiftAmount (v : Word) : Nat := (v.extractLsb' 0 5).toNat

end Sys2Proof.Machine
end

