-- ==== Sys2Proof/Machine/Alu.lean ====
section
/-! DEFINITION. The ALU instructions (40_r_type_alu.md R100 to R106, 41_i_type_addi.md R110). -/

namespace Sys2Proof.Machine

/-- The common behaviour of R100: write the result, advance `pc` by 4, commit, append a trace entry. The
result is computed before the write, so `rd` may be a source. -/
def writeBack (rd : Reg) (result : Int) (s : State) : Host.Outcome State Fault Refusal :=
  .next ((s.writeReg rd result).commit s.pcNext)

/-- R101: `u32(x[rs1] + x[rs2])`. -/
def execAdd (rd rs1 rs2 : Reg) (s : State) : Host.Outcome State Fault Refusal :=
  writeBack rd (s.regVal rs1 + s.regVal rs2) s

/-- R102: `u32(x[rs1] - x[rs2])`. -/
def execSub (rd rs1 rs2 : Reg) (s : State) : Host.Outcome State Fault Refusal :=
  writeBack rd (s.regVal rs1 - s.regVal rs2) s

/-- R103: bitwise inclusive or. -/
def execOr (rd rs1 rs2 : Reg) (s : State) : Host.Outcome State Fault Refusal :=
  writeBack rd (s.readReg rs1 ||| s.readReg rs2).toNat s

/-- R104: `floor(x[rs1] / 2^sh)` with `sh` the low 5 bits of the value of `x[rs2]`. -/
def execSrl (rd rs1 rs2 : Reg) (s : State) : Host.Outcome State Fault Refusal :=
  writeBack rd (s.regVal rs1 / 2 ^ shiftAmount (s.readReg rs2)) s

/-- R105, with the configured `SLT_SIGNED`. -/
def execSlt (rd rs1 rs2 : Reg) (s : State) : Host.Outcome State Fault Refusal :=
  writeBack rd (sltResult Config.sltSigned (s.readReg rs1) (s.readReg rs2)) s

/-- R106: bitwise and. -/
def execAnd (rd rs1 rs2 : Reg) (s : State) : Host.Outcome State Fault Refusal :=
  writeBack rd (s.readReg rs1 &&& s.readReg rs2).toNat s

/-- R110: `u32(x[rs1] + imm_I)`. -/
def execAddi (rd rs1 : Reg) (imm : BitVec 12) (s : State) : Host.Outcome State Fault Refusal :=
  writeBack rd (s.regVal rs1 + sext imm) s

end Sys2Proof.Machine
end

