-- ==== Sys2Proof/Machine/Control.lean ====
section
/-! DEFINITION. Branches (43_branch.md R130, R131) and jumps (44_jump.md R140, R141). -/

namespace Sys2Proof.Machine

/-- The two outcomes of a conditional branch: `pc + offset` when taken, `pc + 4` otherwise; no register
and no memory cell is written. -/
def branch (taken : Bool) (offset : BitVec 13) (s : State) : Host.Outcome State Fault Refusal :=
  .next (s.commit (if taken then s.relativeTarget offset else s.pcNext))

/-- R130. -/
def execBeq (rs1 rs2 : Reg) (offset : BitVec 13) (s : State) : Host.Outcome State Fault Refusal :=
  branch (equalRegs (s.readReg rs1) (s.readReg rs2)) offset s

/-- R131. -/
def execBne (rs1 rs2 : Reg) (offset : BitVec 13) (s : State) : Host.Outcome State Fault Refusal :=
  branch (!equalRegs (s.readReg rs1) (s.readReg rs2)) offset s

/-- R140: link `pc + 4`, target relative to the address of the `jal` itself. -/
def execJal (rd : Reg) (offset : BitVec 21) (s : State) : Host.Outcome State Fault Refusal :=
  .next ((s.writeReg rd s.pcNext).commit (s.relativeTarget offset))

/-- R141: the target comes from the old `x[rs1]`, before the link is written (decision D22, log entry
13); `funct3` is not tested (R69, decision D6, log entry 9). -/
def execJalr (_funct3 : BitVec 3) (rd rs1 : Reg) (imm : BitVec 12) (s : State) :
    Host.Outcome State Fault Refusal :=
  let target := s.indirectTarget rs1 imm
  .next ((s.writeReg rd s.pcNext).commit target.toNat)

end Sys2Proof.Machine
end

