-- ==== Sys2Proof/Machine/LoadStore.lean ====
section
/-! DEFINITION. Load and store (42_load_store.md R120 to R122). -/

namespace Sys2Proof.Machine

/-- R120: the address and the memory read come before the register write; a misaligned data-region
address stops the step with nothing written, also when `rd` is 0. -/
def execLw (rd rs1 : Reg) (imm : BitVec 12) (s : State) : Host.Outcome State Fault Refusal :=
  match s.mem.read (s.effectiveAddress rs1 imm) with
  | .ok v => writeBack rd v.toNat s
  | .error f => .fault f

/-- R121: the value of `x[rs2]` is stored at the effective address; no register is written. -/
def execSw (rs1 rs2 : Reg) (imm : BitVec 12) (s : State) : Host.Outcome State Fault Refusal :=
  match s.mem.write (s.effectiveAddress rs1 imm) (s.regVal rs2) with
  | .ok m => .next ((s.withMem m).commit s.pcNext)
  | .error f => .fault f

end Sys2Proof.Machine
end

