-- ==== Sys2Proof/Machine/System.lean ====
section
/-! DEFINITION. The halt sentinel (45_halt_and_unsupported.md R150) and the words the core does not
execute (R151, R153, 43_branch.md R133). -/

namespace Sys2Proof.Machine

/-- R150: one trace entry at the current `pc`, then `Halted(Sentinel)`; `pc` is not advanced. -/
def execHalt (s : State) : Host.Outcome State Fault Refusal :=
  .next (s.appendTrace.halt .sentinel)

/-- The fatal step of an unsupported word, whatever its fields (R151, 60_exceptions.md R168). -/
def unsupportedStep (s : State) : Host.Outcome State Fault Refusal :=
  .next (s.takeFatal .unsupportedInstruction)

/-- R153: the core has no `xor`. -/
def execXor (_rd _rs1 _rs2 : Reg) (s : State) : Host.Outcome State Fault Refusal := unsupportedStep s

/-- R133: the comparison is not made. -/
def execBlt (_rs1 _rs2 : Reg) (_offset : BitVec 13) (s : State) : Host.Outcome State Fault Refusal :=
  unsupportedStep s

/-- R133: the comparison is not made. -/
def execBge (_rs1 _rs2 : Reg) (_offset : BitVec 13) (s : State) : Host.Outcome State Fault Refusal :=
  unsupportedStep s

/-- R133: the comparison is not made. -/
def execBltu (_rs1 _rs2 : Reg) (_offset : BitVec 13) (s : State) : Host.Outcome State Fault Refusal :=
  unsupportedStep s

/-- R151: every other word. -/
def execUnsupported (_word : InstrWord) (s : State) : Host.Outcome State Fault Refusal := unsupportedStep s

end Sys2Proof.Machine
end

