-- ==== Sys2Proof/Machine/Cycle.lean ====
section
/-! DEFINITION. One pass of the step loop (70_reset_and_hazards.md R193, 60_exceptions.md R167). -/

namespace Sys2Proof.Machine

/-- A step with `status = Running`, the tests in the order of R167: alignment of `pc`, range of the fetch,
then the fetched word. The halt sentinel and the illegal words are the decoder's `halt` and unsupported
rows, so their tests stand in `decode` in that order (R61). -/
def runningStep (s : State) : Host.Outcome State Fault Refusal :=
  match s.fetch with
  | .misaligned => .fault .misalignedPc
  | .outOfRange => .next (s.halt .fetchOutOfRange)
  | .word w => exec (decode w) s

/-- One step. `Halted` and `Fatal` are absorbing: no step is taken and nothing changes (10_state.md R20,
60_exceptions.md R171; decision D20, log entry 2). -/
def cycle (s : State) : Host.Outcome State Fault Refusal :=
  match s.status with
  | .running => runningStep s
  | .halted _ => .next s
  | .fatal _ _ => .next s

end Sys2Proof.Machine
end

