-- ==== Sys2Proof/Machine/Step.lean ====
section
/-! DEFINITION. The step, and the placing of a word where the next step fetches. -/

namespace Sys2Proof.Machine

/-- One step of the core (70_reset_and_hazards.md R193). -/
def step (s : State) : Host.Outcome State Fault Refusal := cycle s

/-- `s` with the table word placed where `step` fetches its next instruction: the instruction store at
index `pc / 4` (10_state.md R23). It stands for the host's load of a program (log entries 1 and 29);
nothing else changes. -/
def State.withFetchWord (s : State) (nbits w : Nat) : State := s.placeFetched (tableWord nbits w)

end Sys2Proof.Machine
end

