-- ==== Sys2Proof/Machine/Text.lean ====
section
/-! DEFINITION. Texts as lists of characters, and the text forms of words and numbers that the trace, the
loader and the assembler share. -/

namespace Sys2Proof.Machine

/-- A text, the list of its characters (log entry 28). -/
abbrev Text := List Char

/-- A line that holds only white space. -/
def isBlank (line : Text) : Bool := line.all Char.isWhitespace

/-- One bit as a character. -/
def bitChar (b : Bool) : Char := if b then '1' else '0'

/-- A word as 32 characters, most significant bit first (30_encoding.md R50, R91). -/
def wordLine (w : Word) : Text := (List.range Config.ilen).map fun i => bitChar (w.getMsbD i)

/-- The bit a character stands for. -/
def charBit (c : Char) : Option Bool :=
  if c = '0' then some false else if c = '1' then some true else none

/-- The number a text of `0` and `1` spells, most significant bit first, continuing from `acc`. -/
def bitsValue (acc : Nat) : Text → Option Nat
  | [] => some acc
  | c :: cs =>
    match charBit c with
    | some b => bitsValue (2 * acc + b.toNat) cs
    | none => none

/-- The word a line of `0` and `1` spells. -/
def wordOfLine (line : Text) : Option Word := (bitsValue 0 line).map (BitVec.ofNat Config.ilen)

/-- A natural number in decimal. -/
def natText (n : Nat) : Text := Nat.toDigits 10 n

/-- An integer in decimal, a minus sign before a negative one. -/
def intText (v : Int) : Text := if v < 0 then '-' :: natText v.natAbs else natText v.natAbs

end Sys2Proof.Machine
end

