-- ==== Sys2Proof/Machine/Assembler.lean ====
section
/-! DEFINITION. The assembler, the source's Encoder (30_encoding.md R80 to R97; register names
10_state.md R15). It is software around the core: nothing in the step depends on it. -/

namespace Sys2Proof.Machine

/-! ### Names (R15) -/

/-- The Register Name Table in index order. PRESUMED beyond `zero` = 0 and `a0` = 10 (decision D17, log
entry 17). -/
def regNames : List Text :=
  ["zero".toList, "ra".toList, "sp".toList, "gp".toList, "tp".toList, "t0".toList, "t1".toList, "t2".toList]
  ++ ["s0".toList, "s1".toList, "a0".toList, "a1".toList, "a2".toList, "a3".toList, "a4".toList, "a5".toList]
  ++ ["a6".toList, "a7".toList, "s2".toList, "s3".toList, "s4".toList, "s5".toList, "s6".toList, "s7".toList]
  ++ ["s8".toList, "s9".toList, "s10".toList, "s11".toList, "t3".toList, "t4".toList, "t5".toList, "t6".toList]

/-- The index of a register name; any other text is no register (R90). The numeric names `x0` to `x31`, the
alias `fp` and upper-case names are no register names: DESIGN CHOICE, the spec leaves it open (R15), log
entry 32. -/
def regIndex (name : Text) : Option Reg := (regNames.idxOf? name).map (BitVec.ofNat 5)

/-! ### Lines and tokens (R80) -/

/-- Operand separators are commas and white space. -/
def isSeparator (c : Char) : Bool := c == ',' || c.isWhitespace

/-- The tokens of a text between separators; `cur` holds the token being read, reversed. Separators before
the first token, after the last one and in runs are dropped, so `, addi a0, zero, 5,` is read like
`addi a0, zero, 5`: DESIGN CHOICE, the spec is silent (R80), log entry 18. -/
def tokensFrom (cur : Text) : Text → List Text
  | [] => if cur.isEmpty then [] else [cur.reverse]
  | c :: cs =>
    if isSeparator c then
      if cur.isEmpty then tokensFrom [] cs else cur.reverse :: tokensFrom [] cs
    else tokensFrom (c :: cur) cs

/-- The tokens of a text: the mnemonic and the operands. -/
def tokens (text : Text) : List Text := tokensFrom [] text

/-- The text without leading white space. -/
def trimLeft (line : Text) : Text := line.dropWhile Char.isWhitespace

/-- A line that holds no instruction: blank, or its first visible character is `#`. -/
def isSkipped (line : Text) : Bool := isBlank line || (trimLeft line).head? == some '#'

/-- Characters a label name may hold (log entry 19). -/
def isLabelChar (c : Char) : Bool :=
  !(isSeparator c || c == ':' || c == '#' || c == '(' || c == ')')

/-- The optional `label:` prefix of a line and the text after it (R80). White space before the label is
dropped; white space between the name and the colon makes it no label, as does an empty name; white space
after the colon is free: DESIGN CHOICE, the spec leaves it open, log entry 19. -/
def splitLabel (line : Text) : Option Text × Text :=
  let body := trimLeft line
  let name := body.takeWhile isLabelChar
  match body.dropWhile isLabelChar with
  | ':' :: rest => if name.isEmpty then (none, body) else (some name, rest)
  | _ => (none, body)

/-! ### Pass 1 (R81) -/

/-- An instruction text with its source line number and its pass-1 address. -/
structure Slot where
  line : Nat
  addr : Nat
  text : Text
  deriving DecidableEq, Repr

/-- The label table: names with their addresses, in the order recorded. -/
abbrev Labels := List (Text × Nat)

/-- Address assignment from line number `n` and running address `addr`: every remaining non-empty text
takes one slot, recognised or not; a line with only a label takes none. -/
def pass1 (n addr : Nat) : List Text → Labels × List Slot
  | [] => ([], [])
  | line :: lines =>
    if isSkipped line then pass1 (n + 1) addr lines
    else
      let split := splitLabel line
      let labels : Labels := match split.1 with
        | some name => [(name, addr)]
        | none => []
      if isBlank split.2 then
        let rest := pass1 (n + 1) addr lines
        (labels ++ rest.1, rest.2)
      else
        let rest := pass1 (n + 1) (addr + Config.instrSlot) lines
        (labels ++ rest.1, { line := n, addr := addr, text := split.2 } :: rest.2)

/-- A label's address; the last record of a name counts (log entry 19). -/
def labelAddr (labels : Labels) (name : Text) : Option Nat := labels.reverse.lookup name

/-! ### Operands (R84 to R89) -/

/-- The number a text of decimal digits spells, continuing from `acc`. -/
def digitsValue (acc : Nat) : Text → Option Nat
  | [] => some acc
  | c :: cs => if c.isDigit then digitsValue (10 * acc + (c.toNat - '0'.toNat)) cs else none

/-- A literal decimal integer: digits, a minus sign before them for a negative one (log entry 18). -/
def parseInt (text : Text) : Option Int :=
  match text with
  | [] => none
  | '-' :: ds => if ds.isEmpty then none else (digitsValue 0 ds).map fun n : Nat => -(n : Int)
  | ds => (digitsValue 0 ds).map fun n : Nat => (n : Int)

/-- `imm(reg)`: a signed integer immediately followed by a parenthesised register name (R86). -/
def parseMem (text : Text) : Option (Int × Reg) :=
  match parseInt (text.takeWhile (· != '(')), text.dropWhile (· != '(') with
  | some v, '(' :: rest =>
    if rest.getLast? = some ')' then (regIndex rest.dropLast).map fun r => (v, r) else none
  | _, _ => none

/-- A target: a label's distance from the current address, or a literal offset (R88). -/
def parseTarget (labels : Labels) (addr : Nat) (text : Text) : Option Int :=
  match labelAddr labels text with
  | some a => some ((a : Int) - addr)
  | none => parseInt text

/-- The `n`-bit two's-complement field of an offset; an odd offset or one out of range is refused
(decision D16, log entry 21). -/
def offsetField (n : Nat) (d : Int) : Option (BitVec n) :=
  if d % 2 = 0 ∧ -(2 ^ (n - 1)) ≤ d ∧ d < 2 ^ (n - 1) then some (BitVec.ofInt n d) else none

/-! ### Pass 2 (R82, R83) -/

/-- The operand pattern of a mnemonic with its field values (R83). -/
inductive AsmForm where
  | r (funct7 : BitVec 7) (funct3 : BitVec 3)
  | i (funct3 : BitVec 3) (opcode : BitVec 7)
  | load
  | store
  | b (funct3 : BitVec 3)
  | j
  deriving DecidableEq, Repr

/-- The 16 mnemonics of the assembler (R82) with the values of R83. There is no `and`, no mnemonic for the
halt sentinel and no pseudo-instruction (R93, R95). -/
def opcodeTable : List (Text × AsmForm) :=
  [("add".toList, .r 0b0000000#7 0b000#3), ("sub".toList, .r 0b0100000#7 0b000#3),
   ("or".toList, .r 0b0000000#7 0b110#3), ("srl".toList, .r 0b0000000#7 0b101#3),
   ("slt".toList, .r 0b0000000#7 0b010#3), ("xor".toList, .r 0b0000000#7 0b100#3)]
  ++ [("addi".toList, .i 0b000#3 opcodeAluImm), ("jalr".toList, .i 0b000#3 opcodeJalr),
      ("lw".toList, .load), ("sw".toList, .store)]
  ++ [("beq".toList, .b 0b000#3), ("bne".toList, .b 0b001#3), ("blt".toList, .b 0b100#3),
      ("bge".toList, .b 0b101#3), ("bltu".toList, .b 0b110#3), ("jal".toList, .j)]

/-- `rd, rs1, rs2` (R84). -/
def asmR (funct7 : BitVec 7) (funct3 : BitVec 3) : List Text → Option InstrWord
  | [rd, rs1, rs2] =>
    match regIndex rd, regIndex rs1, regIndex rs2 with
    | some d, some a, some b => some (placeR funct7 b a funct3 d opcodeAlu)
    | _, _, _ => none
  | _ => none

/-- `rd, rs1, imm`, the immediate masked to 12 bits (R85). -/
def asmI (funct3 : BitVec 3) (opcode : BitVec 7) : List Text → Option InstrWord
  | [rd, rs1, imm] =>
    match regIndex rd, regIndex rs1, parseInt imm with
    | some d, some a, some v => some (placeI (BitVec.ofInt 12 v) a funct3 d opcode)
    | _, _, _ => none
  | _ => none

/-- `rd, imm(rs1)` (R86). -/
def asmLoad : List Text → Option InstrWord
  | [rd, place] =>
    match regIndex rd, parseMem place with
    | some d, some (v, a) => some (placeI (BitVec.ofInt 12 v) a 0b010#3 d opcodeLoad)
    | _, _ => none
  | _ => none

/-- `rs2, imm(rs1)` (R87). -/
def asmStore : List Text → Option InstrWord
  | [rs2, place] =>
    match regIndex rs2, parseMem place with
    | some b, some (v, a) => some (placeS (BitVec.ofInt 12 v) b a 0b010#3 opcodeStore)
    | _, _ => none
  | _ => none

/-- `rs1, rs2, target` (R88); the current address is the pass-1 address (decision D15). -/
def asmB (labels : Labels) (addr : Nat) (funct3 : BitVec 3) : List Text → Option InstrWord
  | [rs1, rs2, target] =>
    match regIndex rs1, regIndex rs2, (parseTarget labels addr target).bind (offsetField 13) with
    | some a, some b, some d => some (placeB d b a funct3 opcodeBranch)
    | _, _, _ => none
  | _ => none

/-- `rd, target` (R89). -/
def asmJ (labels : Labels) (addr : Nat) : List Text → Option InstrWord
  | [rd, target] =>
    match regIndex rd, (parseTarget labels addr target).bind (offsetField 21) with
    | some r, some d => some (placeJ d r opcodeJal)
    | _, _ => none
  | _ => none

/-- The word of one instruction text, or nothing: a `ParseError` (R82, R90). Mnemonics are compared with
their letter case, so an upper-case one is not recognised: DESIGN CHOICE, the spec leaves it open (R80),
log entry 32. -/
def asmText (labels : Labels) (addr : Nat) (text : Text) : Option InstrWord :=
  match tokens text with
  | [] => none
  | mnemonic :: operands =>
    match opcodeTable.lookup mnemonic with
    | none => none
    | some (.r funct7 funct3) => asmR funct7 funct3 operands
    | some (.i funct3 opcode) => asmI funct3 opcode operands
    | some .load => asmLoad operands
    | some .store => asmStore operands
    | some (.b funct3) => asmB labels addr funct3 operands
    | some .j => asmJ labels addr operands

/-! ### Output (R90 to R92) -/

/-- What an assembly returns: the words and the source line numbers of the `ParseError`s. -/
structure AsmResult where
  words  : List InstrWord
  errors : List Nat
  deriving DecidableEq, Repr

/-- Each slot's line number and its word, if it encodes. Line numbers count every line of the source from
1, blank and comment lines among them: DESIGN CHOICE, the spec says only 'source line number' (R90,
60_exceptions.md R160), log entry 33. -/
def encodeSlots (source : List Text) : List (Nat × Option InstrWord) :=
  let p := pass1 1 0 source
  p.2.map fun slot => (slot.line, asmText p.1 slot.addr slot.text)

/-- The word list under a failure policy: the reference omits the failed lines (R91, R92). -/
def emitWords (policy : AsmFailPolicy) (results : List (Nat × Option InstrWord)) : List InstrWord :=
  match policy with
  | .omitLine => results.filterMap fun r => r.2
  | .abort => if results.all fun r => r.2.isSome then results.filterMap fun r => r.2 else []
  | .placeholder w => results.map fun r => r.2.getD w

/-- The assembler: two passes over the source lines; a failing instruction is reported and the rest are
still encoded (R90). -/
def assemble (policy : AsmFailPolicy) (source : List Text) : AsmResult :=
  let results := encodeSlots source
  { words := emitWords policy results
    errors := results.filterMap fun r => if r.2.isSome then none else some r.1 }

/-- The output lines, exactly 32 characters each (R91). -/
def AsmResult.lines (r : AsmResult) : List Text := r.words.map wordLine

end Sys2Proof.Machine
end

