-- ==== Sys2Proof/Machine/Datapath.lean ====
section
/-! DEFINITION. The core as the blocks of 00_scope.md rule R5 and the step of 70_reset_and_hazards.md rule
R193 in the spec's own order. A second reading of the same rules, beside `step`: that the two agree is a
statement for the provers. -/

namespace Sys2Proof.Machine

/-- A request to the data memory (R5). A load names the register its value goes to. -/
inductive MemRequest where
  | load (addr : Word) (rd : Reg)
  | store (addr : Word) (v : Word)
  deriving DecidableEq, Repr

/-- The execute unit's result `{wb, mem, next_pc}` (R5). -/
structure ExecOut where
  wb     : Option (Reg × Int)
  mem    : Option MemRequest
  nextPc : Int
  deriving DecidableEq, Repr

/-- A result written back, `next_pc = pc + 4` (R100, R110). -/
def wbOut (rd : Reg) (v : Int) (pc : PcWord) : ExecOut :=
  { wb := some (rd, v), mem := none, nextPc := pc.toNat + Config.instrSlot }

/-- `Exec(Decoded, a, b, pc)` with `a = x[rs1]` and `b = x[rs2]` (R5; rules R101 to R141). `HALT` and
`UNSUPPORTED` do not reach the execute unit (R193); they get the result that changes nothing. -/
def execUnit (d : Decoded) (a b : Word) (pc : PcWord) : ExecOut :=
  match d.op with
  | .ADD => wbOut d.rd ((a + b).toNat) pc
  | .SUB => wbOut d.rd ((a - b).toNat) pc
  | .OR => wbOut d.rd ((a ||| b).toNat) pc
  | .SRL => wbOut d.rd ((a >>> (b &&& 31#32)).toNat) pc
  | .SLT => wbOut d.rd (if sltLess Config.sltSigned a b then 1 else 0) pc
  | .AND => wbOut d.rd ((a &&& b).toNat) pc
  | .ADDI => wbOut d.rd ((a + u32 d.imm).toNat) pc
  | .LW => { wb := none, mem := some (.load (a + u32 d.imm) d.rd), nextPc := pc.toNat + Config.instrSlot }
  | .SW => { wb := none, mem := some (.store (a + u32 d.imm) b), nextPc := pc.toNat + Config.instrSlot }
  | .BEQ => { wb := none, mem := none, nextPc := if a = b then pc.toNat + d.imm else pc.toNat + Config.instrSlot }
  | .BNE => { wb := none, mem := none, nextPc := if a ≠ b then pc.toNat + d.imm else pc.toNat + Config.instrSlot }
  | .JAL => { wb := some (d.rd, pc.toNat + Config.instrSlot), mem := none, nextPc := pc.toNat + d.imm }
  | .JALR => { wb := some (d.rd, pc.toNat + Config.instrSlot), mem := none,
               nextPc := ((a + u32 d.imm) &&& ~~~1#32).toNat }
  | .HALT => { wb := none, mem := none, nextPc := pc.toNat }
  | .UNSUPPORTED => { wb := none, mem := none, nextPc := pc.toNat }

/-- The register file's one write access per step (R5). -/
def writePort (wb : Option (Reg × Int)) (s : State) : State :=
  match wb with
  | some (rd, v) => s.writeReg rd v
  | none => s

/-- The memory access, the write-back and the commit of a step (R193). -/
def applyExec (out : ExecOut) (s : State) : Host.Outcome State Fault Refusal :=
  match out.mem with
  | none => .next ((writePort out.wb s).commit out.nextPc)
  | some (.load addr rd) =>
    match s.mem.read addr with
    | .ok v => .next ((writePort (some (rd, v.toNat)) s).commit out.nextPc)
    | .error f => .fault f
  | some (.store addr v) =>
    match s.mem.write addr v.toNat with
    | .ok m => .next ((writePort out.wb (s.withMem m)).commit out.nextPc)
    | .error f => .fault f

/-- The fetched word's part of `Step(state)` (R193): the halt test, decode, the unsupported test, execute
and commit. -/
def blockWord (w : InstrWord) (s : State) : Host.Outcome State Fault Refusal :=
  if w = Config.haltWord then .next (s.appendTrace.halt .sentinel)
  else
    let d := decodeRecord w
    if d.op = .UNSUPPORTED then .next (s.takeFatal .unsupportedInstruction)
    else applyExec (execUnit d (s.readReg d.rs1) (s.readReg d.rs2) s.pc) s

/-- `Step(state)` of R193, for `status = Running`, in the pseudocode's order. -/
def blockStep (s : State) : Host.Outcome State Fault Refusal :=
  if s.pc.toNat % Config.instrSlot ≠ 0 then .fault .misalignedPc
  else
    match s.imem[s.pc.toNat / Config.instrSlot]? with
    | none => .next (s.halt .fetchOutOfRange)
    | some w => blockWord w s

end Sys2Proof.Machine
end

