-- ==== Sys2Proof/Machine/Run.lean ====
section
/-! DEFINITION. What surrounds a step: the four outcomes (00_scope.md R6), a run under a step cap
(60_exceptions.md R180), its result (70_reset_and_hazards.md R194, R195), the trace's two text forms
(10_state.md R31), and the loader (30_encoding.md R98). -/

namespace Sys2Proof.Machine

/-! ### The outcome of a step -/

/-- The outcome of a step as the spec sorts it (R6, 60_exceptions.md R173). -/
inductive StepTag where
  | next
  | halted (cause : HaltCause)
  | fatal (kind : ErrorKind) (addr : PcWord)
  | unspecified (reason : Fault)
  | refused (reason : Refusal)
  deriving DecidableEq, Repr

/-- The tag of the state a step leaves. -/
def statusTag : Status → StepTag
  | .running => .next
  | .halted cause => .halted cause
  | .fatal kind addr => .fatal kind addr

/-- The tag of an outcome of `step`. -/
def outcomeTag : Host.Outcome State Fault Refusal → StepTag
  | .next t => statusTag t.status
  | .fault f => .unspecified f
  | .refused r => .refused r

/-! ### A run -/

/-- How a run ended (R194). Out of fuel is the step cap's end and none of the core's own
(decision D13, log entry 25). -/
inductive RunEnd where
  | halted (cause : HaltCause)
  | fatal (kind : ErrorKind) (addr : PcWord)
  | unspecified (reason : Fault)
  | refused (reason : Refusal)
  | outOfFuel
  deriving DecidableEq, Repr

/-- The end a status stands for when no further step is taken. -/
def endOfStatus : Status → RunEnd
  | .running => .outOfFuel
  | .halted cause => .halted cause
  | .fatal kind addr => .fatal kind addr

/-- At most `fuel` steps from `s` (`FUEL`, R4, R180): how the run ended and the last state, which an
`Unspecified` step leaves as it was (R165). -/
def runFuel : Nat → State → RunEnd × State
  | 0, s => (endOfStatus s.status, s)
  | fuel + 1, s =>
    match s.status with
    | .running =>
      match step s with
      | .next t => runFuel fuel t
      | .fault f => (.unspecified f, s)
      | .refused r => (.refused r, s)
    | .halted cause => (.halted cause, s)
    | .fatal kind addr => (.fatal kind addr, s)

/-- What the host receives after a run (R195): the end, the trace and the final data-region snapshot. The
stack region is not returned. -/
structure RunResult where
  ending : RunEnd
  trace  : List Snapshot
  data   : Vector Word Config.dataWords
  deriving DecidableEq, Repr

/-- A run of a program from reset under a step cap (R190, R195). -/
def runProgram (fuel : Nat) (program : List InstrWord) : RunResult :=
  let r := runFuel fuel (State.boot program)
  { ending := r.1, trace := r.2.trace, data := r.2.mem.data }

/-! ### The trace's text forms -/

/-- A value as `0b` and its 32 bits, most significant first (R31). -/
def binaryText (w : Word) : Text := '0' :: 'b' :: wordLine w

/-- The binary-formatted entry: 33 texts, `pc` first, then `x[0]` to `x[31]` (R31). How they are separated
is open (decision D19, log entry 23). -/
def Snapshot.binaryTexts (e : Snapshot) : List Text := binaryText e.pc :: e.regs.toList.map binaryText

/-- The decimal-formatted entry: `pc` unsigned, each register as signed 32-bit decimal (R31). -/
def Snapshot.decimalTexts (e : Snapshot) : List Text :=
  natText e.pc.toNat :: e.regs.toList.map fun w => intText (s32 w)

/-- The two equal-length sequences of the source (R31). -/
def State.traceTexts (s : State) : List (List Text) × List (List Text) :=
  (s.trace.map Snapshot.binaryTexts, s.trace.map Snapshot.decimalTexts)

/-! ### The loader -/

/-- Why the loader refuses its input (30_encoding.md R98, 60_exceptions.md R163). Line numbers count every
line from 1 (log entry 22). -/
inductive LoadError where
  /-- `FormatError`: the line is not blank and not exactly 32 characters -/
  | formatError (line : Nat)
  /-- 32 characters, one of them neither `0` nor `1` (decision D14) -/
  | notBinary (line : Nat)
  deriving DecidableEq, Repr

/-- Reads the lines from line number `n` on; the first offending line decides. Blank lines take no index
(decision D14). -/
def loadFrom : Nat → List Text → Except LoadError (List InstrWord)
  | _, [] => .ok []
  | n, line :: lines =>
    if isBlank line then loadFrom (n + 1) lines
    else if line.length = Config.ilen then
      match wordOfLine line with
      | some w =>
        match loadFrom (n + 1) lines with
        | .ok ws => .ok (w :: ws)
        | .error e => .error e
      | none => .error (.notBinary n)
    else .error (.formatError n)

/-- The loader (R98): non-blank line `k`, counting from 0, becomes `IMEM[k]`. -/
def loadLines (lines : List Text) : Except LoadError (List InstrWord) := loadFrom 1 lines

/-- The core's contract toward the host (60_exceptions.md R180): lines in, a result out; no run takes
place when the loader refuses (R163). -/
def simulate (fuel : Nat) (lines : List Text) : Except LoadError RunResult :=
  match loadLines lines with
  | .ok program => .ok (runProgram fuel program)
  | .error e => .error e

end Sys2Proof.Machine
end

