-- ==== Sys2Proof/WellFormed.lean ====
section
/-! DEFINITION. Which terms of `Instr` stand for a word: even offsets (30_encoding.md R59, R60), no `beq`
in the place of the halt sentinel (R61), and an `unsupported` word only of the illegal classes of R70 that
no named row of the table covers. -/

namespace Sys2Proof

/-- The seven decoded opcodes (R62). -/
def decodedOpcodes : List (BitVec 7) :=
  [opcodeAlu, opcodeAluImm, opcodeLoad, opcodeStore, opcodeBranch, opcodeJal, opcodeJalr]

/-- The six decoded pairs `(funct3, funct7)` of opcode `0110011` (R63). -/
def decodedAluPairs : List (BitVec 3 × BitVec 7) :=
  [(0b000#3, 0b0000000#7), (0b000#3, 0b0100000#7), (0b110#3, 0b0000000#7), (0b101#3, 0b0000000#7),
   (0b010#3, 0b0000000#7), (0b111#3, 0b0000000#7)]

/-- The complete list of illegal classes, row by row (R70). -/
def illegalWord (w : InstrWord) : Bool :=
  (!decodedOpcodes.contains (fieldOpcode w))
  || (fieldOpcode w == opcodeAlu && !decodedAluPairs.contains (fieldFunct3 w, fieldFunct7 w))
  || (fieldOpcode w == opcodeAluImm && fieldFunct3 w != 0b000#3)
  || (fieldOpcode w == opcodeLoad && fieldFunct3 w != 0b010#3)
  || (fieldOpcode w == opcodeStore && fieldFunct3 w != 0b010#3)
  || (fieldOpcode w == opcodeBranch && fieldFunct3 w != 0b000#3 && fieldFunct3 w != 0b001#3)

/-- The illegal words that have a row of their own in the table: `xor` (R153), `blt`, `bge`, `bltu`
(R133). -/
def assemblerOnlyWord (w : InstrWord) : Bool :=
  (fieldOpcode w == opcodeAlu && fieldFunct3 w == 0b100#3 && fieldFunct7 w == 0b0000000#7)
  || (fieldOpcode w == opcodeBranch
      && (fieldFunct3 w == 0b100#3 || fieldFunct3 w == 0b101#3 || fieldFunct3 w == 0b110#3))

/-- Bit 0 of a B or J offset has no place in the word and is zero (R55, R56). -/
def evenOffset {n : Nat} (offset : BitVec n) : Bool := !offset.getLsbD 0

/-- The instruction is one some word decodes to. -/
def Instr.wellFormed : Instr → Bool
  | .halt => true
  | .add _ _ _ => true
  | .sub _ _ _ => true
  | .or _ _ _ => true
  | .srl _ _ _ => true
  | .slt _ _ _ => true
  | .and _ _ _ => true
  | .addi _ _ _ => true
  | .lw _ _ _ => true
  | .sw _ _ _ => true
  | .beq rs1 rs2 offset => evenOffset offset && !(rs1 == 0#5 && rs2 == 0#5 && offset == 0#13)
  | .bne _ _ offset => evenOffset offset
  | .jal _ offset => evenOffset offset
  | .jalr _ _ _ _ => true
  | .xor _ _ _ => true
  | .blt _ _ offset => evenOffset offset
  | .bge _ _ offset => evenOffset offset
  | .bltu _ _ offset => evenOffset offset
  | .unsupported word => illegalWord word && !assemblerOnlyWord word

end Sys2Proof
end

