-- ==== Sys2Proof/Safety.lean ====
section
/-! DEFINITION. The terms claims are stated in: the frame of a step, the invariant of the machine, and the
registers an instruction reads and writes. -/

namespace Sys2Proof

open Sys2Proof.Machine

/-! ### Registers read and written (10_state.md R16) -/

/-- The registers an instruction reads. -/
def Instr.sources : Instr → List Reg
  | .halt => []
  | .add _ rs1 rs2 => [rs1, rs2]
  | .sub _ rs1 rs2 => [rs1, rs2]
  | .or _ rs1 rs2 => [rs1, rs2]
  | .srl _ rs1 rs2 => [rs1, rs2]
  | .slt _ rs1 rs2 => [rs1, rs2]
  | .and _ rs1 rs2 => [rs1, rs2]
  | .addi _ rs1 _ => [rs1]
  | .lw _ rs1 _ => [rs1]
  | .sw rs1 rs2 _ => [rs1, rs2]
  | .beq rs1 rs2 _ => [rs1, rs2]
  | .bne rs1 rs2 _ => [rs1, rs2]
  | .jal _ _ => []
  | .jalr _ _ rs1 _ => [rs1]
  | .xor _ _ _ => []
  | .blt _ _ _ => []
  | .bge _ _ _ => []
  | .bltu _ _ _ => []
  | .unsupported _ => []

/-- The register an instruction writes. -/
def Instr.dest : Instr → Option Reg
  | .halt => none
  | .add rd _ _ => some rd
  | .sub rd _ _ => some rd
  | .or rd _ _ => some rd
  | .srl rd _ _ => some rd
  | .slt rd _ _ => some rd
  | .and rd _ _ => some rd
  | .addi rd _ _ => some rd
  | .lw rd _ _ => some rd
  | .sw _ _ _ => none
  | .beq _ _ _ => none
  | .bne _ _ _ => none
  | .jal rd _ => some rd
  | .jalr _ rd _ _ => some rd
  | .xor _ _ _ => none
  | .blt _ _ _ => none
  | .bge _ _ _ => none
  | .bltu _ _ _ => none
  | .unsupported _ => none

namespace Machine

/-! ### Source lines (30_encoding.md R80, R81) -/

/-- The label a source line records. -/
def lineLabel (line : Text) : Option Text := if isSkipped line then none else (splitLabel line).1

/-- The line holds an instruction text, recognised or not: it takes one slot. -/
def holdsInstruction (line : Text) : Bool := !isSkipped line && !isBlank (splitLabel line).2

/-! ### Frames -/

/-- A completed step that leaves the status, the instruction store and every register but `rd` as they
were, commits `target`, and appends the snapshot of its own result (R30). The memory is said apart. -/
structure CompletedStep (s t : State) (target : Word) : Prop where
  pc     : t.pc = target
  status : t.status = s.status
  imem   : t.imem = s.imem
  trace  : t.trace = s.trace ++ [t.snapshot]

/-- A completed step that writes `v` to `rd` (nothing where `rd` is 0, which reads 0) and changes no other
register and no memory cell. -/
structure RegisterStep (s t : State) (rd : Reg) (v target : Word) : Prop extends
    CompletedStep s t target where
  dest   : t.readReg rd = if rd = 0#5 then 0#32 else v
  others : ∀ r, r ≠ rd → t.readReg r = s.readReg r
  mem    : ∀ a, t.mem.read a = s.mem.read a

/-- A completed step that writes no register and no memory cell. -/
structure QuietStep (s t : State) (target : Word) : Prop extends CompletedStep s t target where
  regs : ∀ r, t.readReg r = s.readReg r
  mem  : ∀ a, t.mem.read a = s.mem.read a

/-- A completed step that stores `v` at `addr` and changes no register and no other cell. -/
structure StoreStep (s t : State) (addr v target : Word) : Prop extends CompletedStep s t target where
  regs   : ∀ r, t.readReg r = s.readReg r
  stored : t.mem.read addr = .ok v
  others : ∀ a, a ≠ addr → t.mem.read a = s.mem.read a

/-- The state a fatal step leaves (60_exceptions.md R168): only the status differs. -/
def State.afterFatal (s : State) : State := { s with status := .fatal .unsupportedInstruction s.pc }

/-- The state the halt step leaves (45_halt_and_unsupported.md R150). -/
def State.afterHalt (s : State) : State :=
  { s with trace := s.trace ++ [s.snapshot], status := .halted .sentinel }

/-- The conditions under which a data-space address has no behaviour (20_memory.md R41). -/
abbrev MisalignedData (a : Word) : Prop :=
  0x00010000 ≤ a.toNat ∧ a.toNat ≤ 0x0001007C ∧ a.toNat % 4 ≠ 0

/-! ### The invariant -/

/-- The status tells the truth about the word at `pc` (70_reset_and_hazards.md R194). -/
def State.statusTrue (s : State) : Prop :=
  match s.status with
  | .running => True
  | .halted .sentinel => s.fetch = .word Config.haltWord
  | .halted .fetchOutOfRange => s.fetch = .outOfRange
  | .fatal kind addr =>
    kind = .unsupportedInstruction ∧ addr = s.pc ∧ ∃ w, s.fetch = .word w ∧ illegalWord w = true

/-- The invariant of the machine: memory in canonical form, slot 0 of the register file and of every
snapshot 0 (R12, R30), `pc` even (branch and jump offsets are even and `jalr` clears bit 0), a truthful
status, and a last trace entry that shows the current state (R17, R30, R150). -/
structure State.Inv (s : State) : Prop where
  mem       : s.mem.wf
  regZero   : s.regs[0] = 0#32
  pcEven    : s.pc.toNat % 2 = 0
  status    : s.statusTrue
  traceZero : ∀ e ∈ s.trace, e.regs[0] = 0#32 ∧ e.pc.toNat % 2 = 0
  traceLast : s.trace = [] ∨ s.trace.getLast? = some s.snapshot

end Machine

end Sys2Proof
end

