-- ==== Sys2Proof/Certificates/Slice0/Obligations.lean ====
section
/-! DEFINITION. The statements for the provers, each a `def Obligations.<Name> : Prop`. A docstring names
the rule of spec/ it formalises; where a clause rests on a decision of 92_eei_decisions.md (the spec's own
choice), the docstring names the decision and the model's log entry. -/

open Sys2Proof Sys2Proof.Machine

/-! ### Encoding and decoding -/

/-- R9: sign extension is the value less `2^N` when bit `N-1` is set, it equals the source's second
formula, and it lies in `[-2^(N-1), 2^(N-1)-1]`. -/
def Obligations.SignExtensionFormula : Prop :=
  ∀ (n : Nat) (v : BitVec (n + 1)),
    sext v = (if v.getLsbD n then (v.toNat : Int) - 2 ^ (n + 1) else v.toNat) ∧
    sext v = ((v.toNat &&& (2 ^ n - 1) : Nat) : Int) - (v.toNat &&& 2 ^ n : Nat) ∧
    -(2 ^ n) ≤ sext v ∧ sext v ≤ 2 ^ n - 1

/-- R57 to R60: the immediate of each operation that has one, its bits named by the rule, with its range; the
B and J immediates are even. The same for every word with its format's opcode, an unsupported one too, and 0
for R-format: the decoded record of R73 with the formats of R62; the record is the spec's own (decision D11,
log entry 31). -/
def Obligations.ImmediateOfEachFormat : Prop :=
  ∀ w : Word, let d := decodeRecord w; let opcode := w.extractLsb' 0 7
    (((d.op = .ADDI ∨ d.op = .LW ∨ d.op = .JALR) ∨
        opcode = 0b0010011#7 ∨ opcode = 0b0000011#7 ∨ opcode = 0b1100111#7) →
      d.imm = (w.extractLsb' 20 12).toInt ∧ -2048 ≤ d.imm ∧ d.imm ≤ 2047) ∧
    ((d.op = .SW ∨ opcode = 0b0100011#7) →
      d.imm = (w.extractLsb' 25 7 ++ w.extractLsb' 7 5).toInt ∧ -2048 ≤ d.imm ∧ d.imm ≤ 2047) ∧
    (((d.op = .BEQ ∨ d.op = .BNE) ∨ opcode = 0b1100011#7) →
      d.imm = (w.extractLsb' 31 1 ++ w.extractLsb' 7 1 ++ w.extractLsb' 25 6 ++ w.extractLsb' 8 4
        ++ 0#1).toInt ∧ -4096 ≤ d.imm ∧ d.imm ≤ 4094 ∧ d.imm % 2 = 0) ∧
    ((d.op = .JAL ∨ opcode = 0b1101111#7) →
      d.imm = (w.extractLsb' 31 1 ++ w.extractLsb' 12 8 ++ w.extractLsb' 20 1 ++ w.extractLsb' 21 10
        ++ 0#1).toInt ∧ -1048576 ≤ d.imm ∧ d.imm ≤ 1048574 ∧ d.imm % 2 = 0) ∧
    (opcode = 0b0110011#7 → d.imm = 0)

/-- R57 to R60 with R53 to R56 (95 L1-3): a signed value in the field's range (even for B and J), placed
in a word and extracted again, is itself. -/
def Obligations.ImmediateRoundTrip : Prop :=
  (∀ (v : Int) (rs1 rd : Reg) (f3 : BitVec 3) (op : BitVec 7), -2048 ≤ v → v ≤ 2047 →
    sext (bitsImmI (placeI (BitVec.ofInt 12 v) rs1 f3 rd op)) = v) ∧
  (∀ (v : Int) (rs1 rs2 : Reg) (f3 : BitVec 3) (op : BitVec 7), -2048 ≤ v → v ≤ 2047 →
    sext (bitsImmS (placeS (BitVec.ofInt 12 v) rs2 rs1 f3 op)) = v) ∧
  (∀ (v : Int) (rs1 rs2 : Reg) (f3 : BitVec 3) (op : BitVec 7), -4096 ≤ v → v ≤ 4094 → v % 2 = 0 →
    sext (bitsImmB (placeB (BitVec.ofInt 13 v) rs2 rs1 f3 op)) = v) ∧
  (∀ (v : Int) (rd : Reg) (op : BitVec 7), -1048576 ≤ v → v ≤ 1048574 → v % 2 = 0 →
    sext (bitsImmJ (placeJ (BitVec.ofInt 21 v) rd op)) = v)

/-- R74: encoding an R-format word and reading its fields recovers the whole tuple, and the register and
function fields of the other formats come back too. -/
def Obligations.FieldRoundTrip : Prop :=
  ∀ (f7 : BitVec 7) (rs2 rs1 : Reg) (f3 : BitVec 3) (rd : Reg) (op : BitVec 7) (i12 : BitVec 12)
    (i13 : BitVec 13) (i21 : BitVec 21),
    (let w := placeR f7 rs2 rs1 f3 rd op
     fieldOpcode w = op ∧ fieldFunct3 w = f3 ∧ fieldFunct7 w = f7 ∧ fieldRd w = rd ∧ fieldRs1 w = rs1 ∧
       fieldRs2 w = rs2) ∧
    (let w := placeI i12 rs1 f3 rd op
     fieldOpcode w = op ∧ fieldFunct3 w = f3 ∧ fieldRd w = rd ∧ fieldRs1 w = rs1 ∧ bitsImmI w = i12) ∧
    (let w := placeS i12 rs2 rs1 f3 op
     fieldOpcode w = op ∧ fieldFunct3 w = f3 ∧ fieldRs1 w = rs1 ∧ fieldRs2 w = rs2 ∧ bitsImmS w = i12) ∧
    (let w := placeB i13 rs2 rs1 f3 op
     fieldOpcode w = op ∧ fieldFunct3 w = f3 ∧ fieldRs1 w = rs1 ∧ fieldRs2 w = rs2 ∧
       (i13.getLsbD 0 = false → bitsImmB w = i13)) ∧
    (let w := placeJ i21 rd op
     fieldOpcode w = op ∧ fieldRd w = rd ∧ (i21.getLsbD 0 = false → bitsImmJ w = i21))

/-- R61 and R71: the whole-word test comes first: exactly the word `0x00000063` is the halt sentinel, and
every other word with opcode `1100011` and `funct3 = 000` is a `beq`. -/
def Obligations.HaltSentinelIsOneWord : Prop :=
  ∀ w : Word, (decode w = .halt ↔ w = 0x00000063#32) ∧
    (w ≠ 0x00000063#32 → w.extractLsb' 0 7 = 0b1100011#7 → w.extractLsb' 12 3 = 0b000#3 →
      (decodeRecord w).op = .BEQ)

/-- R63 to R68: the second-level dispatch of each opcode but `jalr`'s, with every other function value
unsupported, and an unsupported word fatal at the address it stands at. -/
def Obligations.DispatchOnFunctionFields : Prop :=
  ∀ w : Word,
    (fieldOpcode w = 0b0110011#7 →
      ((decode w).op = .ADD ↔ fieldFunct3 w = 0b000#3 ∧ fieldFunct7 w = 0b0000000#7) ∧
      ((decode w).op = .SUB ↔ fieldFunct3 w = 0b000#3 ∧ fieldFunct7 w = 0b0100000#7) ∧
      ((decode w).op = .OR ↔ fieldFunct3 w = 0b110#3 ∧ fieldFunct7 w = 0b0000000#7) ∧
      ((decode w).op = .SRL ↔ fieldFunct3 w = 0b101#3 ∧ fieldFunct7 w = 0b0000000#7) ∧
      ((decode w).op = .SLT ↔ fieldFunct3 w = 0b010#3 ∧ fieldFunct7 w = 0b0000000#7) ∧
      ((decode w).op = .AND ↔ fieldFunct3 w = 0b111#3 ∧ fieldFunct7 w = 0b0000000#7) ∧
      (decode w).op ∈ [Op.ADD, .SUB, .OR, .SRL, .SLT, .AND, .UNSUPPORTED]) ∧
    (fieldOpcode w = 0b0010011#7 →
      (decode w).op = if fieldFunct3 w = 0b000#3 then .ADDI else .UNSUPPORTED) ∧
    (fieldOpcode w = 0b0000011#7 →
      (decode w).op = if fieldFunct3 w = 0b010#3 then .LW else .UNSUPPORTED) ∧
    (fieldOpcode w = 0b0100011#7 →
      (decode w).op = if fieldFunct3 w = 0b010#3 then .SW else .UNSUPPORTED) ∧
    (fieldOpcode w = 0b1100011#7 → w ≠ 0x00000063#32 →
      (decode w).op = if fieldFunct3 w = 0b000#3 then .BEQ
        else if fieldFunct3 w = 0b001#3 then .BNE else .UNSUPPORTED) ∧
    (fieldOpcode w = 0b1101111#7 → (decode w).op = .JAL) ∧
    ((decode w).op = .UNSUPPORTED → ∀ s : State, ∃ t, exec (decode w) s = .next t ∧
      t.status = .fatal .unsupportedInstruction s.pc)

/-- The opcode table's match and mask with the field positions of R51: a word that matches a row is that
row's instruction with its operands. That `jalr`'s row leaves `funct3` free is the spec's decision D6 (log
entry 9, DESIGN CHOICE); the rows of `xor`, `bge` and `bltu` have the function fields of log entry 16
(PRESUMED, decision D18). -/
def Obligations.TableRowsDecode : Prop :=
  ∀ w : Word, let rd := w.extractLsb' 7 5; let rs1 := w.extractLsb' 15 5; let rs2 := w.extractLsb' 20 5
    (w &&& 0xFE00707F#32 = 0x00000033#32 → decode w = .add rd rs1 rs2) ∧
    (w &&& 0xFE00707F#32 = 0x40000033#32 → decode w = .sub rd rs1 rs2) ∧
    (w &&& 0xFE00707F#32 = 0x00006033#32 → decode w = .or rd rs1 rs2) ∧
    (w &&& 0xFE00707F#32 = 0x00005033#32 → decode w = .srl rd rs1 rs2) ∧
    (w &&& 0xFE00707F#32 = 0x00002033#32 → decode w = .slt rd rs1 rs2) ∧
    (w &&& 0xFE00707F#32 = 0x00007033#32 → decode w = .and rd rs1 rs2) ∧
    (w &&& 0x0000707F#32 = 0x00000013#32 → decode w = .addi rd rs1 (w.extractLsb' 20 12)) ∧
    (w &&& 0x0000707F#32 = 0x00002003#32 → decode w = .lw rd rs1 (w.extractLsb' 20 12)) ∧
    (w &&& 0x0000707F#32 = 0x00002023#32 →
      decode w = .sw rs1 rs2 (w.extractLsb' 25 7 ++ w.extractLsb' 7 5)) ∧
    (w &&& 0x0000707F#32 = 0x00000063#32 → w ≠ 0x00000063#32 → decode w = .beq rs1 rs2 (bitsImmB w)) ∧
    (w &&& 0x0000707F#32 = 0x00001063#32 → decode w = .bne rs1 rs2 (bitsImmB w)) ∧
    (w &&& 0x0000007F#32 = 0x0000006F#32 → decode w = .jal rd (bitsImmJ w)) ∧
    (w &&& 0x0000007F#32 = 0x00000067#32 →
      decode w = .jalr (w.extractLsb' 12 3) rd rs1 (w.extractLsb' 20 12)) ∧
    (w &&& 0xFE00707F#32 = 0x00004033#32 → decode w = .xor rd rs1 rs2) ∧
    (w &&& 0x0000707F#32 = 0x00004063#32 → decode w = .blt rs1 rs2 (bitsImmB w)) ∧
    (w &&& 0x0000707F#32 = 0x00005063#32 → decode w = .bge rs1 rs2 (bitsImmB w)) ∧
    (w &&& 0x0000707F#32 = 0x00006063#32 → decode w = .bltu rs1 rs2 (bitsImmB w))

/-- R70: the illegal classes are complete: a word has no operation exactly when it is in one of them, and
its step is then fatal at the address it stands at. -/
def Obligations.IllegalClassesAreComplete : Prop :=
  ∀ w : Word, ((decodeRecord w).op = .UNSUPPORTED ↔ illegalWord w = true) ∧
    (illegalWord w = true → ∀ s : State, ∃ t, exec (decode w) s = .next t ∧
      t.status = .fatal .unsupportedInstruction s.pc)

/-- Words of 95_test_vectors.md Part 2.1, one or more of each family, decode to their instructions. -/
def Obligations.VectorWordsDecode : Prop :=
  decode 0x00500513#32 = .addi 10 0 5 ∧ decode 0x00628533#32 = .add 10 5 6 ∧
  decode 0x40628533#32 = .sub 10 5 6 ∧ decode 0x00B2F7B3#32 = .and 15 5 11 ∧
  decode 0xFFC12503#32 = .lw 10 2 0xFFC ∧ decode 0x7EA2AFA3#32 = .sw 5 10 2047 ∧
  decode 0x7E000FE3#32 = .beq 0 0 4094 ∧ decode 0xFE029CE3#32 = .bne 5 0 0x1FF8 ∧
  decode 0x001000EF#32 = .jal 1 2048 ∧ decode 0x0002F0E7#32 = .jalr 7 1 5 0 ∧
  decode 0x00000063#32 = .halt ∧ decode 0x00B2C7B3#32 = .xor 15 5 11 ∧
  decode 0x00004063#32 = .blt 0 0 0 ∧ decode 0x00000000#32 = .unsupported 0

/-- R52 to R56 with R61 to R70: decoding the encoding of any well-formed instruction gives it back, with
every operand at every value. -/
def Obligations.DecodeEncodeRoundTrip : Prop :=
  ∀ i : Instr, i.wellFormed = true → decode (encode i) = i

/-- R73: the decoder is total, what it gives is well-formed, and no bit of the word is lost. -/
def Obligations.EncodeDecodeRoundTrip : Prop :=
  ∀ w : Word, (decode w).wellFormed = true ∧ encode (decode w) = w

/-! ### Registers and reset -/

/-- R32: every piece of state after reset, for any program supplied; the instruction store is that
program. -/
def Obligations.ResetValues : Prop :=
  ∀ program : List Word, let s := State.boot program
    s.readReg 0 = 0 ∧ s.readReg 1 = 0 ∧ s.readReg 2 = 380 ∧ (∀ r : Reg, 3 ≤ r.toNat → s.readReg r = 0) ∧
    s.pc = 0 ∧ s.status = .running ∧ (∀ k : Fin 32, s.mem.data[k] = 0) ∧ s.mem.stack = [] ∧
    (∀ a : Word, ¬ MisalignedData a → s.mem.read a = .ok 0) ∧ s.trace = [] ∧ s.imem = program

/-- The invariant holds after reset, whatever program is supplied. -/
def Obligations.ResetMeetsInvariant : Prop :=
  State.reset.Inv ∧ ∀ program : List InstrWord, (State.boot program).Inv

/-- R12: index 0 reads 0 in every state, any other index its stored value; and a write to index 0 changes
nothing (R13). -/
def Obligations.RegisterZero : Prop :=
  ∀ (s : State) (i : Reg) (v : Int), s.readReg 0 = 0 ∧ (i ≠ 0 → s.readReg i = s.regs[i.toNat]'i.isLt) ∧
    s.writeReg 0 v = s

/-- R14 with decision D1 (log entry 4): a write to index 1 to 31 stores `v mod 2^32` for every integer
`v`, and no other register and nothing else changes. -/
def Obligations.RegisterWriteMasks : Prop :=
  ∀ (s : State) (i : Reg) (v : Int), i ≠ 0 →
    (((s.writeReg i v).readReg i).toNat : Int) = v % 2 ^ 32 ∧
    (∀ j, j ≠ i → (s.writeReg i v).readReg j = s.readReg j) ∧
    (s.writeReg i v).pc = s.pc ∧ (s.writeReg i v).status = s.status ∧ (s.writeReg i v).mem = s.mem ∧
    (s.writeReg i v).trace = s.trace ∧ (s.writeReg i v).imem = s.imem

/-! ### The data space -/

/-- R36 (with the source's memory boundary law, 95 L1-5): the routing rule of loads and stores by address:
slot `k` of the data region at `0x00010000 + 4 * k`, so slot 31 at `0x0001007C`, and the stack-region cell
keyed by the address itself at every address below or above, `0x0001007D` to `0x0001007F` and `0x00010080`
among them. -/
def Obligations.MemoryRouting : Prop :=
  ∀ (m : Memory) (a v : Word),
    (∀ k : Fin 32, a.toNat = 0x00010000 + 4 * k.val →
      m.read a = .ok m.data[k] ∧ m.write a v.toNat = .ok { m with data := m.data.set k.val v }) ∧
    ((a.toNat < 0x00010000 ∨ 0x0001007C < a.toNat) →
      m.read a = .ok (stackRead m.stack a.toNat) ∧
      m.write a v.toNat = .ok { m with stack := stackWrite m.stack a.toNat v })

/-- R41 with decision D5 (log entry 8): exactly the addresses in the data region's range that are no
multiple of 4 stop a read and a write. -/
def Obligations.MisalignedDataStops : Prop :=
  ∀ (m : Memory) (a : Word) (v : Int),
    (m.read a = .error .misalignedDataRegionAccess ↔ MisalignedData a) ∧
    (m.write a v = .error .misalignedDataRegionAccess ↔ MisalignedData a)

/-- R38 with R37: a write to an address that has a cell stores `v mod 2^32` there, a read of it gives
that back, every other address reads as before, and the canonical form is kept. -/
def Obligations.MemWriteThenRead : Prop :=
  ∀ (m : Memory) (a : Word) (v : Int), m.wf → ¬ MisalignedData a →
    ∃ m', m.write a v = .ok m' ∧ m'.wf ∧
      (∃ x : Word, m'.read a = .ok x ∧ (x.toNat : Int) = v % 2 ^ 32) ∧
      ∀ b : Word, b ≠ a → m'.read b = m.read b

/-- R40: an address outside the data region's range is a cell of its own, whatever its alignment: an access
never stops and touches no other address; and the example of the rule, from reset. -/
def Obligations.StackCellsAreIndependent : Prop :=
  (∀ (m : Memory) (a b : Word) (v : Word), m.wf → (a.toNat < 0x00010000 ∨ 0x0001007C < a.toNat) → b ≠ a →
    (∃ x, m.read a = .ok x) ∧
    ∃ m', m.write a v.toNat = .ok m' ∧ m'.read a = .ok v ∧ m'.read b = m.read b ∧ m'.data = m.data) ∧
  (∃ m', State.reset.mem.write 0x100 0xAABBCCDD = .ok m' ∧ m'.read 0x100 = .ok 0xAABBCCDD ∧
    m'.read 0x101 = .ok 0 ∧ m'.read 0x102 = .ok 0 ∧ m'.read 0x104 = .ok 0)

/-- R25 and R28: two memories in canonical form that read alike at every address are equal, so whether a
cell was ever written cannot be seen. -/
def Obligations.MemoryIsWhatItReads : Prop :=
  ∀ m m' : Memory, m.wf → m'.wf → (∀ a : Word, m.read a = m'.read a) → m = m'

/-! ### The ALU -/

/-- R101: `add`, for all registers (a source may be the destination). The wrap and `pc + 4` are modulo
`2^32` (decisions D1, D2; log entries 4, 5); the operation is log entry 15. -/
def Obligations.AddResult : Prop :=
  ∀ (rd rs1 rs2 : Reg) (s : State), ∃ t, exec (.add rd rs1 rs2) s = .next t ∧
    RegisterStep s t rd (s.readReg rs1 + s.readReg rs2) (s.pc + 4)

/-- R102: `sub`, `rs1` less `rs2` (decisions D1, D2; log entries 4, 5, 15). -/
def Obligations.SubResult : Prop :=
  ∀ (rd rs1 rs2 : Reg) (s : State), ∃ t, exec (.sub rd rs1 rs2) s = .next t ∧
    RegisterStep s t rd (s.readReg rs1 - s.readReg rs2) (s.pc + 4)

/-- R103 and R106: `or` and `and` (decision D2; log entries 5, 15). -/
def Obligations.OrAndResult : Prop :=
  ∀ (rd rs1 rs2 : Reg) (s : State),
    (∃ t, exec (.or rd rs1 rs2) s = .next t ∧
      RegisterStep s t rd (s.readReg rs1 ||| s.readReg rs2) (s.pc + 4)) ∧
    (∃ t, exec (.and rd rs1 rs2) s = .next t ∧
      RegisterStep s t rd (s.readReg rs1 &&& s.readReg rs2) (s.pc + 4))

/-- R104: `srl` shifts by the low 5 bits of the value of `x[rs2]`, zeros entering (decision D2; log
entry 5). -/
def Obligations.SrlResult : Prop :=
  ∀ (rd rs1 rs2 : Reg) (s : State), ∃ t, exec (.srl rd rs1 rs2) s = .next t ∧
    RegisterStep s t rd (s.readReg rs1 >>> ((s.readReg rs2).toNat % 32)) (s.pc + 4)

/-- R105: `slt` with `SLT_SIGNED = false`, the spec's own reading (decision D7, log entry 10): 1 or 0 by
the unsigned order of the stored values (`pc + 4` by D2, log entry 5). -/
def Obligations.SltResult : Prop :=
  ∀ (rd rs1 rs2 : Reg) (s : State), ∃ t, exec (.slt rd rs1 rs2) s = .next t ∧
    RegisterStep s t rd (if (s.readReg rs1).ult (s.readReg rs2) then 1#32 else 0#32) (s.pc + 4)

/-- R105: the two readings of `slt` (parameter `SLT_SIGNED`): unsigned and signed order, which agree
whenever bit 31 of the operands is equal and differ whenever it is not. -/
def Obligations.SltReadings : Prop :=
  ∀ a b : Word, sltLess false a b = a.ult b ∧ sltLess true a b = a.slt b ∧
    (sltLess false a b = sltLess true a b ↔ a.msb = b.msb)

/-- R110: `addi` with the sign-extended immediate (decisions D1, D2; log entries 4, 5). -/
def Obligations.AddiResult : Prop :=
  ∀ (rd rs1 : Reg) (imm : BitVec 12) (s : State), ∃ t, exec (.addi rd rs1 imm) s = .next t ∧
    RegisterStep s t rd (s.readReg rs1 + imm.signExtend 32) (s.pc + 4)

/-! ### Load and store -/

/-- R120: `lw` completes at every address but a misaligned one of the data region, with the cell's value
in `rd` (decisions D2, D3, D5; log entries 5, 6, 8). -/
def Obligations.LwResult : Prop :=
  ∀ (rd rs1 : Reg) (imm : BitVec 12) (s : State), ¬ MisalignedData (s.effectiveAddress rs1 imm) →
    ∃ t v, s.mem.read (s.effectiveAddress rs1 imm) = .ok v ∧ exec (.lw rd rs1 imm) s = .next t ∧
      RegisterStep s t rd v (s.pc + 4)

/-- R121: `sw` completes at every address but a misaligned one of the data region; the cell at the
effective address holds `x[rs2]` and every other address reads as before (decisions D2, D3, D5; log
entries 5, 6, 8). -/
def Obligations.SwResult : Prop :=
  ∀ (rs1 rs2 : Reg) (imm : BitVec 12) (s : State), s.mem.wf →
    ¬ MisalignedData (s.effectiveAddress rs1 imm) →
    ∃ t, exec (.sw rs1 rs2 imm) s = .next t ∧ t.mem.wf ∧
      StoreStep s t (s.effectiveAddress rs1 imm) (s.readReg rs2) (s.pc + 4)

/-- R43 with decision D3 (log entry 6): the effective address is base plus sign-extended displacement
modulo `2^32`; R120, R121 with decision D5 (log entry 8): `lw` (also with `rd = 0`) and `sw` stop exactly
where it is a misaligned data-region address. -/
def Obligations.LoadStoreAddressAndStops : Prop :=
  ∀ (rd rs1 rs2 : Reg) (imm : BitVec 12) (s : State),
    s.effectiveAddress rs1 imm = s.readReg rs1 + imm.signExtend 32 ∧
    (exec (.lw rd rs1 imm) s = .fault .misalignedDataRegionAccess ↔
      MisalignedData (s.effectiveAddress rs1 imm)) ∧
    (exec (.sw rs1 rs2 imm) s = .fault .misalignedDataRegionAccess ↔
      MisalignedData (s.effectiveAddress rs1 imm))

/-- R46 (2), (3): a `lw` right after a `sw` to the same effective address loads the stored value, by
whatever registers and displacements the two are formed (a destination that reads 0 apart). -/
def Obligations.LoadAfterStore : Prop :=
  ∀ (rs1 rs2 rd rs1' : Reg) (imm imm' : BitVec 12) (s : State), s.mem.wf →
    ¬ MisalignedData (s.effectiveAddress rs1 imm) →
    s.effectiveAddress rs1' imm' = s.effectiveAddress rs1 imm →
    ∃ t u, exec (.sw rs1 rs2 imm) s = .next t ∧ exec (.lw rd rs1' imm') t = .next u ∧
      u.readReg rd = if rd = 0 then 0 else s.readReg rs2

/-! ### Branches and jumps -/

/-- R130 and R131: `beq` and `bne` on equal and on unequal values; the target is relative to the branch
and modulo `2^32` (decision D2, log entry 5); no register and no memory cell changes. -/
def Obligations.BranchResult : Prop :=
  ∀ (rs1 rs2 : Reg) (offset : BitVec 13) (s : State),
    (∃ t, exec (.beq rs1 rs2 offset) s = .next t ∧
      QuietStep s t (if s.readReg rs1 = s.readReg rs2 then s.pc + offset.signExtend 32 else s.pc + 4)) ∧
    (∃ t, exec (.bne rs1 rs2 offset) s = .next t ∧
      QuietStep s t (if s.readReg rs1 = s.readReg rs2 then s.pc + 4 else s.pc + offset.signExtend 32))

/-- R132: for every even distance in `[-4096, 4094]` from a branch to a label, the field the assembler
places (R88) decodes to exactly that distance in a `beq` and in a `bne` word, and the branch, taken, lands
exactly on the label, forward or backward. (The word of `beq x0, x0` at distance 0 is the halt sentinel,
R61.) -/
def Obligations.BranchDisplacement : Prop :=
  ∀ (s : State) (label : Nat) (rs1 rs2 : Reg), label < 2 ^ 32 →
    ((label : Int) - s.pc.toNat) % 2 = 0 → -4096 ≤ (label : Int) - s.pc.toNat →
    (label : Int) - s.pc.toNat ≤ 4094 →
    ∃ field, offsetField 13 ((label : Int) - s.pc.toNat) = some field ∧
      (decodeRecord (placeB field rs2 rs1 0b000#3 opcodeBranch)).imm = (label : Int) - s.pc.toNat ∧
      (decodeRecord (placeB field rs2 rs1 0b001#3 opcodeBranch)).imm = (label : Int) - s.pc.toNat ∧
      (s.readReg rs1 = s.readReg rs2 → ¬ (rs1 = 0 ∧ rs2 = 0 ∧ label = s.pc.toNat) →
        ∃ t, exec (decode (placeB field rs2 rs1 0b000#3 opcodeBranch)) s = .next t ∧ t.pc.toNat = label) ∧
      (s.readReg rs1 ≠ s.readReg rs2 →
        ∃ t, exec (decode (placeB field rs2 rs1 0b001#3 opcodeBranch)) s = .next t ∧ t.pc.toNat = label)

/-- R140: `jal` links `pc + 4` and goes to `pc + offset`, both modulo `2^32` (decision D2, log entry 5). -/
def Obligations.JalResult : Prop :=
  ∀ (rd : Reg) (offset : BitVec 21) (s : State), ∃ t, exec (.jal rd offset) s = .next t ∧
    RegisterStep s t rd (s.pc + 4) (s.pc + offset.signExtend 32)

/-- R141: `jalr` goes to the old `x[rs1]` plus the immediate with bit 0 cleared and links `pc + 4`, also
when `rd = rs1` (decisions D2, D6, D22; log entries 5, 9, 13). -/
def Obligations.JalrResult : Prop :=
  ∀ (f3 : BitVec 3) (rd rs1 : Reg) (imm : BitVec 12) (s : State),
    ∃ t, exec (.jalr f3 rd rs1 imm) s = .next t ∧
      RegisterStep s t rd (s.pc + 4) ((s.readReg rs1 + imm.signExtend 32) &&& 0xFFFFFFFE#32)

/-! ### Halt and unsupported words -/

/-- R150: the halt step appends one entry at the current `pc` and sets `Halted(Sentinel)`; nothing else
changes; and the halt law: from reset with the sentinel first, that is the whole run. -/
def Obligations.HaltSentinel : Prop :=
  (∀ s : State, exec .halt s = .next s.afterHalt) ∧
  (∀ (s : State), s.status = .running → s.pc.toNat % 4 = 0 →
    s.imem[s.pc.toNat / 4]? = some 0x00000063#32 → step s = .next s.afterHalt) ∧
  (∀ (rest : List Word), ∃ t, step (State.boot (0x00000063#32 :: rest)) = .next t ∧
    t.trace = [State.reset.snapshot] ∧ t.status = .halted .sentinel ∧ t.pc = 0 ∧
    ∀ r, t.readReg r = State.reset.readReg r)

/-- R168 with decision D9 (log entry 3): the fatal entry of the five rows the core does not execute: only
the status changes, whatever the operands. -/
def Obligations.FatalEntry : Prop :=
  ∀ (rd rs1 rs2 : Reg) (offset : BitVec 13) (w : Word) (s : State),
    exec (.xor rd rs1 rs2) s = .next s.afterFatal ∧ exec (.blt rs1 rs2 offset) s = .next s.afterFatal ∧
    exec (.bge rs1 rs2 offset) s = .next s.afterFatal ∧ exec (.bltu rs1 rs2 offset) s = .next s.afterFatal ∧
    exec (.unsupported w) s = .next s.afterFatal

/-- A fetched word of the illegal classes is fatal in every running state; no other word ever is, for any
operand value (R151, R161, R168). That nothing but the status changes is the spec's decision D9, log
entry 3. -/
def Obligations.FatalDependsOnTheWordAlone : Prop :=
  ∀ (s : State) (w : Word), s.status = .running → s.pc.toNat % 4 = 0 →
    s.imem[s.pc.toNat / 4]? = some w →
    (illegalWord w = true → step s = .next s.afterFatal) ∧
    (illegalWord w = false → ∀ t, step s = .next t → ∀ kind addr, t.status ≠ .fatal kind addr)

/-- R133: a branch word with `funct3` other than `000` and `001` is fatal; in particular the source's
`funct3 = 100`. -/
def Obligations.OtherBranchesAreFatal : Prop :=
  ∀ (s : State) (w : Word), s.status = .running → s.pc.toNat % 4 = 0 →
    s.imem[s.pc.toNat / 4]? = some w → w.extractLsb' 0 7 = 0b1100011#7 →
    w.extractLsb' 12 3 ≠ 0b000#3 → w.extractLsb' 12 3 ≠ 0b001#3 → step s = .next s.afterFatal

/-! ### The step -/

/-- R193: with `status = Running` and a word fetched, the step is exec of the decoded instruction; nothing
stands around it, since each meaning commits `pc` and appends the trace entry itself. -/
def Obligations.StepRunsDecoded : Prop :=
  ∀ (s : State) (w : Word), s.status = .running → s.pc.toNat % 4 = 0 →
    s.imem[s.pc.toNat / 4]? = some w → step s = exec (decode w) s

/-- The placed word is the one the next step runs, and nothing but the instruction store differs. -/
def Obligations.PlacedWordRuns : Prop :=
  ∀ (s : State) (w : Nat), s.status = .running → s.pc.toNat % 4 = 0 → w < 2 ^ 32 →
    decodeTableWord 32 w = some (decode (BitVec.ofNat 32 w)) ∧
    step (s.withFetchWord 32 w) = exec (decode (BitVec.ofNat 32 w)) (s.withFetchWord 32 w) ∧
    { s.withFetchWord 32 w with imem := s.imem } = s

/-- R18 and R23 with decisions D4 and D8 (log entries 7, 11): a misaligned `pc` stops before the range is
looked at; an index at or past the end of the store is a normal end that changes the status only. -/
def Obligations.FetchStopsAndEnds : Prop :=
  ∀ s : State, s.status = .running →
    (s.pc.toNat % 4 ≠ 0 → step s = .fault .misalignedPc) ∧
    (s.pc.toNat % 4 = 0 → s.imem.length ≤ s.pc.toNat / 4 →
      step s = .next { s with status := .halted .fetchOutOfRange })

/-- R20 and R171 with decision D20 (log entry 2): from `Halted` and `Fatal` nothing changes, for any
number of steps. -/
def Obligations.TerminalStatesAbsorb : Prop :=
  ∀ s : State, s.status ≠ .running → step s = .next s ∧ ∀ n, (runFuel n s).2 = s

/-- R165 and R167: no step refuses, and a step stops only for the two reasons of R165: a misaligned `pc`,
or a fetched `lw` or `sw` with a misaligned data-region address. -/
def Obligations.StepStopsOnlyWhereSaid : Prop :=
  ∀ s : State, (∀ r, step s ≠ .refused r) ∧
    ∀ f, step s = .fault f → s.status = .running ∧
      ((f = .misalignedPc ∧ s.pc.toNat % 4 ≠ 0) ∨
        (f = .misalignedDataRegionAccess ∧ s.pc.toNat % 4 = 0 ∧
          ∃ w rs1 imm, s.imem[s.pc.toNat / 4]? = some w ∧ MisalignedData (s.effectiveAddress rs1 imm) ∧
            ((∃ rd, decode w = .lw rd rs1 imm) ∨ ∃ rs2, decode w = .sw rs1 rs2 imm)))

/-- R20: the status leaves `Running` only by the sentinel, a fetch out of range or an illegal word, and
never returns to it. -/
def Obligations.StatusChangesOnlySo : Prop :=
  ∀ s t : State, step s = .next t → t.status ≠ s.status →
    s.status = .running ∧
      ((t.status = .halted .sentinel ∧ s.fetch = .word 0x00000063#32) ∨
        (t.status = .halted .fetchOutOfRange ∧ s.fetch = .outOfRange) ∨
        (t.status = .fatal .unsupportedInstruction s.pc ∧ ∃ w, s.fetch = .word w ∧ illegalWord w = true))

/-- R30: a completed step appends exactly one entry, the snapshot of the state it leaves (`pc`, then the 32
registers, `x[0]` as 0); every other step leaves the trace as it was. A completed step is one that ends
`Running`, or the halt step, whose entry shows the `pc` it was at. -/
def Obligations.TraceGrowsByOneSnapshot : Prop :=
  ∀ s t : State, step s = .next t →
    t.trace =
      (if s.status = .running ∧ (t.status = .running ∨ t.status = .halted .sentinel)
      then s.trace ++ [t.snapshot] else s.trace) ∧
    (t.status = .halted .sentinel → t.pc = s.pc) ∧
    t.snapshot.pc = t.pc ∧ t.snapshot.regs[0] = 0 ∧ ∀ i : Fin 32, t.snapshot.regs[i] = t.readReg (BitVec.ofFin i)

/-- R47 and R23: no step changes the instruction store, whatever it fetched. -/
def Obligations.InstructionStoreNeverChanges : Prop :=
  ∀ s t : State, step s = .next t → t.imem = s.imem

/-- R10 and R46 (4): only `sw` changes memory: a step whose fetched word is no `sw` leaves every cell as
it was. -/
def Obligations.OnlySwWritesMemory : Prop :=
  ∀ s t : State, step s = .next t →
    (∀ w, s.fetch = .word w → (decodeRecord w).op ≠ .SW) → t.mem = s.mem

/-- R16: an instruction writes no register but its destination, and what it does to `pc`, memory and that
register depends on no register but its sources. -/
def Obligations.RegistersReadAndWritten : Prop :=
  ∀ (i : Instr) (s s' t : State), s'.pc = s.pc → s'.mem = s.mem →
    (∀ r ∈ i.sources, s'.readReg r = s.readReg r) → exec i s = .next t →
    (∀ r, i.dest ≠ some r → t.readReg r = s.readReg r) ∧
    ∃ t', exec i s' = .next t' ∧ t'.pc = t.pc ∧ t'.mem = t.mem ∧
      ∀ r, i.dest = some r → t'.readReg r = t.readReg r

/-- The invariant (memory canonical, `x[0]` zero, `pc` even, status truthful, last trace entry current) is
kept by every step from every state that meets it. -/
def Obligations.StepKeepsInvariant : Prop :=
  ∀ s t : State, s.Inv → step s = .next t → t.Inv

/-- R5, R73 and R193: the core as its blocks (decoded record, execute unit, memory request, write port,
commit) in the pseudocode's order gives the same outcome as the step, in every running state. -/
def Obligations.BlocksRefineStep : Prop :=
  ∀ s : State, s.status = .running → blockStep s = step s

/-! ### Runs, trace texts, loader -/

/-- R180 and R194: a run that ended within its fuel ends the same with more; a run out of fuel is still
`Running` and has one new trace entry per step (P14). -/
def Obligations.FuelIsOnlyACap : Prop :=
  ∀ (n m : Nat) (s : State),
    ((runFuel n s).1 ≠ .outOfFuel → runFuel (n + m) s = runFuel n s) ∧
    ((runFuel n s).1 = .outOfFuel →
      (runFuel n s).2.status = .running ∧ (runFuel n s).2.trace.length = s.trace.length + n)

/-- R194 and R180: how a run ended is what the last state's status says, but for a stop, which leaves the
state `Running`. -/
def Obligations.RunEndMatchesStatus : Prop :=
  ∀ (n : Nat) (s : State),
    (∀ c, (runFuel n s).1 = .halted c → (runFuel n s).2.status = .halted c) ∧
    (∀ k a, (runFuel n s).1 = .fatal k a → (runFuel n s).2.status = .fatal k a) ∧
    (∀ f, (runFuel n s).1 = .unspecified f →
      (runFuel n s).2.status = .running ∧ step (runFuel n s).2 = .fault f) ∧
    (∀ r, (runFuel n s).1 ≠ .refused r)

/-- R31: the binary entry has 33 texts, each `0b` and 32 binary digits that spell the value; the decimal
entry spells `pc` unsigned and each register signed; the two sequences have equal length. -/
def Obligations.TraceTextsSpellTheSnapshot : Prop :=
  ∀ (s : State) (e : Snapshot),
    e.binaryTexts.length = 33 ∧ e.decimalTexts.length = 33 ∧
    s.traceTexts.1.length = s.traceTexts.2.length ∧
    e.binaryTexts.map (fun text => wordOfLine (text.drop 2)) = some e.pc :: e.regs.toList.map some ∧
    (∀ text ∈ e.binaryTexts, text.take 2 = ['0', 'b'] ∧ text.length = 34) ∧
    e.decimalTexts.map parseInt =
      some (e.pc.toNat : Int) :: e.regs.toList.map fun w => some w.toInt

/-- R91 and R98: a list of words written out as lines, 32 characters each, loads as itself. -/
def Obligations.LinesLoadAsWords : Prop :=
  ∀ ws : List Word, (∀ line ∈ ws.map wordLine, line.length = 32 ∧ ∀ c ∈ line, c = '0' ∨ c = '1') ∧
    loadLines (ws.map wordLine) = .ok ws

/-- R98 with decision D14 (log entry 22): a load succeeds only when every non-blank line is exactly 32
characters, all `0` or `1`, and then word `k` is the `k`-th non-blank line. -/
def Obligations.LoaderAcceptsOnlyBinaryLines : Prop :=
  ∀ (lines : List Text) (ws : List Word), loadLines lines = .ok ws →
    (lines.filter fun l => !isBlank l) = ws.map wordLine

/-! ### The assembler -/

/-- R97: the worked example, through the whole assembler, with its fields. -/
def Obligations.WorkedExampleAssembles : Prop :=
  (assemble .omitLine ["addi a0, zero, 5".toList]).lines = ["00000000010100000000010100010011".toList] ∧
  placeI 0b000000000101#12 0b00000#5 0b000#3 0b01010#5 0b0010011#7 = 0x00500513#32

/-- R81: pass 1 gives the `k`-th instruction text the address `4 * k`, one slot for each line that holds an
instruction text; and it records exactly the labels of the source's lines, each with the running address:
4 times the number of instruction texts on the lines before it. What a label prefix is follows log
entry 19. -/
def Obligations.PassOneAddresses : Prop :=
  ∀ source : List Text, let p := pass1 1 0 source
    p.2.length = source.countP holdsInstruction ∧
    (∀ k slot, p.2[k]? = some slot → slot.addr = 4 * k) ∧
    (∀ name addr, (name, addr) ∈ p.1 ↔
      ∃ before line after, source = before ++ line :: after ∧ lineLabel line = some name ∧
        addr = 4 * before.countP holdsInstruction)

/-- R82, R83 with R95 and R96: which operation the core decodes from the word of each mnemonic: the
twelve shared ones are decoded as themselves (`beq` also as the halt sentinel, R94), `xor`, `blt`, `bge`
and `bltu` as unsupported; any other mnemonic, `and` among them, gives no word. The function fields of
`xor`, `bge`, `bltu` and `jalr` are presumed (decision D18, log entry 16); that an upper-case mnemonic is
another mnemonic is log entry 32. -/
def Obligations.MnemonicsAndOperations : Prop :=
  ∀ (labels : Labels) (addr : Nat) (text : Text) (w : Word), asmText labels addr text = some w →
    ∃ mnemonic operands, tokens text = mnemonic :: operands ∧
      (mnemonic, (decodeRecord w).op) ∈
        [("add".toList, Op.ADD), ("sub".toList, .SUB), ("or".toList, .OR), ("srl".toList, .SRL),
         ("slt".toList, .SLT), ("addi".toList, .ADDI), ("jalr".toList, .JALR), ("lw".toList, .LW),
         ("sw".toList, .SW), ("beq".toList, .BEQ), ("beq".toList, .HALT), ("bne".toList, .BNE),
         ("jal".toList, .JAL), ("xor".toList, .UNSUPPORTED), ("blt".toList, .UNSUPPORTED),
         ("bge".toList, .UNSUPPORTED), ("bltu".toList, .UNSUPPORTED)]

/-- R90 to R92: under the reference's policy the words are those of the instruction texts that encode, in
source order, and the reported errors are the source lines, in order, of exactly those that do not; a slot's
line number is that of its text's line, counted from 1 over every line (log entry 33). An assembly without
an error gives word `k` for slot `k` under every policy (the open parameter of decision D15, log
entry 20). -/
def Obligations.FailuresAreReportedAndOmitted : Prop :=
  ∀ source : List Text, let p := pass1 1 0 source; let r := assemble .omitLine source
    r.words = (p.2.filterMap fun slot => asmText p.1 slot.addr slot.text) ∧
    r.errors = (p.2.filter fun slot => (asmText p.1 slot.addr slot.text).isNone).map Slot.line ∧
    p.2.Pairwise (fun a b => a.line < b.line) ∧
    (∀ slot ∈ p.2, 1 ≤ slot.line ∧ ∃ line, source[slot.line - 1]? = some line ∧
      holdsInstruction line = true ∧ slot.text = (splitLabel line).2) ∧
    (r.errors = [] → ∀ policy, (assemble policy source).words.map some =
      p.2.map fun slot => asmText p.1 slot.addr slot.text)
end

