-- ==== Sys2Proof/Laws/Decode.lean ====
section
/-! SUPPORT. The decoder opcode by opcode: which second-level dispatch a word reaches, said once. -/

namespace Sys2Proof

/-- The halt sentinel has the branch opcode, so a word with another opcode is not the sentinel. -/
theorem ne_haltWord_of_opcode {w : Word} (h : fieldOpcode w ≠ opcodeBranch) : w ≠ Config.haltWord := by
  rintro rfl; exact h (by decide)

/-- The halt sentinel has `funct3 = 000`. -/
theorem ne_haltWord_of_funct3 {w : Word} (h : fieldFunct3 w ≠ 0b000#3) : w ≠ Config.haltWord := by
  rintro rfl; exact h (by decide)

theorem decode_haltWord : decode Config.haltWord = .halt := by decide

theorem decode_opcodeAlu {w : Word} (h : fieldOpcode w = opcodeAlu) : decode w = decodeAlu w := by
  rw [decode, if_neg (ne_haltWord_of_opcode (by rw [h]; decide)), if_pos h]

theorem decode_opcodeAluImm {w : Word} (h : fieldOpcode w = opcodeAluImm) : decode w = decodeAluImm w := by
  rw [decode, if_neg (ne_haltWord_of_opcode (by rw [h]; decide)), if_neg (by rw [h]; decide), if_pos h]

theorem decode_opcodeLoad {w : Word} (h : fieldOpcode w = opcodeLoad) : decode w = decodeLoad w := by
  rw [decode, if_neg (ne_haltWord_of_opcode (by rw [h]; decide)), if_neg (by rw [h]; decide),
    if_neg (by rw [h]; decide), if_pos h]

theorem decode_opcodeStore {w : Word} (h : fieldOpcode w = opcodeStore) : decode w = decodeStore w := by
  rw [decode, if_neg (ne_haltWord_of_opcode (by rw [h]; decide)), if_neg (by rw [h]; decide),
    if_neg (by rw [h]; decide), if_neg (by rw [h]; decide), if_pos h]

theorem decode_opcodeBranch {w : Word} (h : fieldOpcode w = opcodeBranch) (hw : w ≠ Config.haltWord) :
    decode w = decodeBranch w := by
  rw [decode, if_neg hw, if_neg (by rw [h]; decide), if_neg (by rw [h]; decide),
    if_neg (by rw [h]; decide), if_neg (by rw [h]; decide), if_pos h]

theorem decode_opcodeJal {w : Word} (h : fieldOpcode w = opcodeJal) :
    decode w = .jal (fieldRd w) (bitsImmJ w) := by
  rw [decode, if_neg (ne_haltWord_of_opcode (by rw [h]; decide)), if_neg (by rw [h]; decide),
    if_neg (by rw [h]; decide), if_neg (by rw [h]; decide), if_neg (by rw [h]; decide),
    if_neg (by rw [h]; decide), if_pos h]

theorem decode_opcodeJalr {w : Word} (h : fieldOpcode w = opcodeJalr) :
    decode w = .jalr (fieldFunct3 w) (fieldRd w) (fieldRs1 w) (bitsImmI w) := by
  rw [decode, if_neg (ne_haltWord_of_opcode (by rw [h]; decide)), if_neg (by rw [h]; decide),
    if_neg (by rw [h]; decide), if_neg (by rw [h]; decide), if_neg (by rw [h]; decide),
    if_neg (by rw [h]; decide), if_neg (by rw [h]; decide), if_pos h]

theorem decode_opcodeOther {w : Word} (h : decodedOpcodes.contains (fieldOpcode w) = false) :
    decode w = .unsupported w := by
  have h' : fieldOpcode w ∉ decodedOpcodes := by simpa using h
  simp only [decodedOpcodes, List.mem_cons, List.not_mem_nil, or_false, not_or] at h'
  obtain ⟨h1, h2, h3, h4, h5, h6, h7⟩ := h'
  rw [decode, if_neg (ne_haltWord_of_opcode h5), if_neg h1, if_neg h2, if_neg h3, if_neg h4, if_neg h5,
    if_neg h6, if_neg h7]

/-- A word is the sentinel, has one of the seven decoded opcodes, or another one. -/
theorem opcode_cases (w : Word) :
    w = Config.haltWord ∨ fieldOpcode w = opcodeAlu ∨ fieldOpcode w = opcodeAluImm ∨
      fieldOpcode w = opcodeLoad ∨ fieldOpcode w = opcodeStore ∨
      (fieldOpcode w = opcodeBranch ∧ w ≠ Config.haltWord) ∨ fieldOpcode w = opcodeJal ∨
      fieldOpcode w = opcodeJalr ∨ decodedOpcodes.contains (fieldOpcode w) = false := by
  by_cases hw : w = Config.haltWord
  · exact .inl hw
  · by_cases h : decodedOpcodes.contains (fieldOpcode w) = true
    · simp only [List.contains_iff_mem, decodedOpcodes, List.mem_cons, List.not_mem_nil, or_false] at h
      tauto
    · exact .inr (.inr (.inr (.inr (.inr (.inr (.inr (.inr (by simpa using h))))))))

/-- The immediate of a decoded record, by its operation: the one its format has. -/
theorem decodeRecord_imm (w : InstrWord) : (decodeRecord w).imm =
    match (decodeRecord w).op with
    | .ADDI | .LW | .JALR => sext (bitsImmI w)
    | .SW => sext (bitsImmS w)
    | .BEQ | .BNE => sext (bitsImmB w)
    | .JAL => sext (bitsImmJ w)
    | .HALT | .ADD | .SUB | .OR | .SRL | .SLT | .AND => 0
    | .UNSUPPORTED => immOf w := by
  simp only [decodeRecord]
  rcases opcode_cases w with h | h | h | h | h | ⟨h, hw⟩ | h | h | h
  · subst h; decide
  · rw [decode_opcodeAlu h, immOf, h, decodeAlu]; split_ifs <;> rfl
  · rw [decode_opcodeAluImm h, immOf, h, decodeAluImm]; split_ifs <;> rfl
  · rw [decode_opcodeLoad h, immOf, h, decodeLoad]; split_ifs <;> rfl
  · rw [decode_opcodeStore h, immOf, h, decodeStore]; split_ifs <;> rfl
  · rw [decode_opcodeBranch h hw, immOf, h, decodeBranch]; split_ifs <;> rfl
  · rw [decode_opcodeJal h, immOf, h]; rfl
  · rw [decode_opcodeJalr h, immOf, h]; rfl
  · rw [decode_opcodeOther h]; rfl

end Sys2Proof
end

