-- ==== Sys2Proof/Laws/State.lean ====
section
/-! SUPPORT. One lemma per field per update of the state, true by `rfl`, so that no proof unfolds a record
update. -/

namespace Sys2Proof.Machine

variable (s : State) (i : Reg) (v : Int) (m : Memory) (t : Int) (c : HaltCause) (k : ErrorKind) (w : Word)

/-! ### withMem -/
@[simp] theorem State.withMem_regs : (s.withMem m).regs = s.regs := rfl
@[simp] theorem State.withMem_pc : (s.withMem m).pc = s.pc := rfl
@[simp] theorem State.withMem_status : (s.withMem m).status = s.status := rfl
@[simp] theorem State.withMem_mem : (s.withMem m).mem = m := rfl
@[simp] theorem State.withMem_trace : (s.withMem m).trace = s.trace := rfl
@[simp] theorem State.withMem_imem : (s.withMem m).imem = s.imem := rfl
@[simp] theorem State.withMem_readReg : (s.withMem m).readReg i = s.readReg i := rfl
@[simp] theorem State.withMem_pcNext : (s.withMem m).pcNext = s.pcNext := rfl

/-! ### writeReg -/
@[simp] theorem State.writeReg_pc : (s.writeReg i v).pc = s.pc := by unfold State.writeReg; split <;> rfl
@[simp] theorem State.writeReg_status : (s.writeReg i v).status = s.status := by
  unfold State.writeReg; split <;> rfl
@[simp] theorem State.writeReg_mem : (s.writeReg i v).mem = s.mem := by unfold State.writeReg; split <;> rfl
@[simp] theorem State.writeReg_trace : (s.writeReg i v).trace = s.trace := by
  unfold State.writeReg; split <;> rfl
@[simp] theorem State.writeReg_imem : (s.writeReg i v).imem = s.imem := by unfold State.writeReg; split <;> rfl

/-! ### setPc -/
@[simp] theorem State.setPc_regs : (s.setPc t).regs = s.regs := rfl
@[simp] theorem State.setPc_pc : (s.setPc t).pc = u32 t := rfl
@[simp] theorem State.setPc_status : (s.setPc t).status = s.status := rfl
@[simp] theorem State.setPc_mem : (s.setPc t).mem = s.mem := rfl
@[simp] theorem State.setPc_trace : (s.setPc t).trace = s.trace := rfl
@[simp] theorem State.setPc_imem : (s.setPc t).imem = s.imem := rfl
@[simp] theorem State.setPc_readReg : (s.setPc t).readReg i = s.readReg i := rfl

/-! ### appendTrace -/
@[simp] theorem State.appendTrace_regs : s.appendTrace.regs = s.regs := rfl
@[simp] theorem State.appendTrace_pc : s.appendTrace.pc = s.pc := rfl
@[simp] theorem State.appendTrace_status : s.appendTrace.status = s.status := rfl
@[simp] theorem State.appendTrace_mem : s.appendTrace.mem = s.mem := rfl
@[simp] theorem State.appendTrace_trace : s.appendTrace.trace = s.trace ++ [s.snapshot] := rfl
@[simp] theorem State.appendTrace_imem : s.appendTrace.imem = s.imem := rfl
@[simp] theorem State.appendTrace_readReg : s.appendTrace.readReg i = s.readReg i := rfl
@[simp] theorem State.appendTrace_snapshot : s.appendTrace.snapshot = s.snapshot := rfl
@[simp] theorem State.appendTrace_fetch : s.appendTrace.fetch = s.fetch := rfl

/-! ### commit -/
@[simp] theorem State.commit_regs : (s.commit t).regs = s.regs := rfl
@[simp] theorem State.commit_pc : (s.commit t).pc = u32 t := rfl
@[simp] theorem State.commit_status : (s.commit t).status = s.status := rfl
@[simp] theorem State.commit_mem : (s.commit t).mem = s.mem := rfl
@[simp] theorem State.commit_trace : (s.commit t).trace = s.trace ++ [(s.commit t).snapshot] := rfl
@[simp] theorem State.commit_imem : (s.commit t).imem = s.imem := rfl
@[simp] theorem State.commit_readReg : (s.commit t).readReg i = s.readReg i := rfl

/-! ### halt and takeFatal -/
@[simp] theorem State.halt_regs : (s.halt c).regs = s.regs := rfl
@[simp] theorem State.halt_pc : (s.halt c).pc = s.pc := rfl
@[simp] theorem State.halt_status : (s.halt c).status = .halted c := rfl
@[simp] theorem State.halt_mem : (s.halt c).mem = s.mem := rfl
@[simp] theorem State.halt_trace : (s.halt c).trace = s.trace := rfl
@[simp] theorem State.halt_imem : (s.halt c).imem = s.imem := rfl
@[simp] theorem State.halt_readReg : (s.halt c).readReg i = s.readReg i := rfl
@[simp] theorem State.halt_snapshot : (s.halt c).snapshot = s.snapshot := rfl
@[simp] theorem State.halt_fetch : (s.halt c).fetch = s.fetch := rfl
@[simp] theorem State.takeFatal_regs : (s.takeFatal k).regs = s.regs := rfl
@[simp] theorem State.takeFatal_pc : (s.takeFatal k).pc = s.pc := rfl
@[simp] theorem State.takeFatal_status : (s.takeFatal k).status = .fatal k s.pc := rfl
@[simp] theorem State.takeFatal_mem : (s.takeFatal k).mem = s.mem := rfl
@[simp] theorem State.takeFatal_trace : (s.takeFatal k).trace = s.trace := rfl
@[simp] theorem State.takeFatal_imem : (s.takeFatal k).imem = s.imem := rfl
@[simp] theorem State.takeFatal_readReg : (s.takeFatal k).readReg i = s.readReg i := rfl
@[simp] theorem State.takeFatal_snapshot : (s.takeFatal k).snapshot = s.snapshot := rfl
@[simp] theorem State.takeFatal_fetch : (s.takeFatal k).fetch = s.fetch := rfl

/-! ### placeFetched -/
@[simp] theorem State.placeFetched_regs : (s.placeFetched w).regs = s.regs := rfl
@[simp] theorem State.placeFetched_pc : (s.placeFetched w).pc = s.pc := rfl
@[simp] theorem State.placeFetched_status : (s.placeFetched w).status = s.status := rfl
@[simp] theorem State.placeFetched_mem : (s.placeFetched w).mem = s.mem := rfl
@[simp] theorem State.placeFetched_trace : (s.placeFetched w).trace = s.trace := rfl
@[simp] theorem State.placeFetched_imem :
    (s.placeFetched w).imem = placeWord s.imem (s.pc.toNat / 4) w := rfl

end Sys2Proof.Machine
end

