-- ==== Sys2Proof/Laws/Ops.lean ====
section
/-! SUPPORT. For each shared operation, what it can do, said once: registers, the stack region's list, the
data space, the step. -/

namespace Sys2Proof.Machine

/-! ### Words -/

/-- The bounds of the words' values, as numerals. -/
theorem Word.toNat_lt (w : Word) : w.toNat < 4294967296 := w.isLt

/-- The bound of the program counter's value, as a numeral. -/
theorem PcWord.toNat_lt (w : PcWord) : w.toNat < 4294967296 := w.isLt

/-- The bounds of a data-region slot's number, as a numeral. -/
theorem dataSlot_lt (k : Fin Config.dataWords) : k.val < 32 := k.isLt

/-- Narrowing a natural number is `BitVec.ofNat`. -/
theorem u32_natCast (n : Nat) : u32 (n : Int) = BitVec.ofNat 32 n := by
  simp [u32]

/-- Narrowing a word's value gives the word back. -/
@[simp] theorem u32_toNat (w : Word) : u32 (w.toNat : Int) = w := by
  simp [u32]

/-- Narrowing commutes with addition. -/
theorem u32_add (a b : Int) : u32 (a + b) = u32 a + u32 b := by
  simp [u32, BitVec.ofInt_add]

/-- Narrowing commutes with subtraction. -/
theorem u32_sub (a b : Int) : u32 (a - b) = u32 a - u32 b := by
  rw [sub_eq_add_neg, u32_add, u32, u32, u32, BitVec.ofInt_neg, BitVec.sub_eq_add_neg]

/-- Sign extension is the two's-complement reading. -/
theorem sext_eq_toInt {n : Nat} (v : BitVec n) : sext v = v.toInt := by
  rw [sext, BitVec.toInt_eq_msb_cond, BitVec.msb_eq_getLsbD_last, BitVec.getLsbD]
  push_cast
  rfl

/-- A sign-extended field, narrowed to a word, is the word-level sign extension. -/
theorem u32_sext {n : Nat} (v : BitVec n) : u32 (sext v) = v.signExtend 32 := by
  rw [sext_eq_toInt, u32, BitVec.signExtend]

/-! ### Registers -/

@[simp] theorem State.readReg_zero (s : State) : s.readReg 0#5 = 0#32 := by
  simp [State.readReg]

/-- A write to index 0 changes nothing. -/
@[simp] theorem State.writeReg_zero (s : State) (v : Int) : s.writeReg 0#5 v = s := by
  simp [State.writeReg]

/-- What a read gives after a write. -/
theorem State.readReg_writeReg (s : State) (i j : Reg) (v : Int) :
    (s.writeReg i v).readReg j = if j = i then (if i = 0#5 then 0#32 else u32 v) else s.readReg j := by
  by_cases hi : i = 0#5
  · subst hi; by_cases hj : j = 0#5 <;> simp [hj]
  · by_cases hj : j = 0#5
    · subst hj; simp [(Ne.symm hi : ¬ 0#5 = i)]
    · by_cases h : j = i
      · subst h; simp [State.writeReg, State.readReg, hi]
      · have : ¬ i.toNat = j.toNat := fun e => h (BitVec.eq_of_toNat_eq e.symm)
        simp [State.writeReg, State.readReg, hi, hj, h, this]

/-- Slot 0 of the register file is written by no register write. -/
@[simp] theorem State.writeReg_regs_zero (s : State) (i : Reg) (v : Int) :
    (s.writeReg i v).regs[0] = s.regs[0] := by
  unfold State.writeReg
  split
  · rfl
  · rename_i h
    have : ¬ i.toNat = 0 := fun e => h (BitVec.eq_of_toNat_eq (by simpa using e))
    simp [this]

/-- The snapshot's register `i` is what a read of register `i` gives. -/
theorem State.snapshot_getElem (s : State) (i : Nat) (h : i < 32) :
    s.snapshot.regs[i] = s.readReg (BitVec.ofNat 32 i |>.setWidth 5) := by
  simp only [State.snapshot, Vector.getElem_ofFn]
  congr 1
  apply BitVec.eq_of_toNat_eq
  simp [BitVec.toNat_ofFin]
  omega

/-- `x[0]` is 0 in every snapshot. -/
@[simp] theorem State.snapshot_zero (s : State) : s.snapshot.regs[0] = 0#32 := by
  rw [State.snapshot_getElem]; simp

/-! ### The stack region's list -/

/-- The canonical form of a list of cells. -/
abbrev StackWf (cells : List (Nat × Word)) : Prop :=
  cells.Pairwise (fun c d => c.1 < d.1) ∧ ∀ c ∈ cells, c.2 ≠ 0#32 ∧ c.1 < 2 ^ 32 ∧ inDataRange c.1 = false

/-- A key below every listed key reads 0. -/
theorem stackRead_below {cells : List (Nat × Word)} {a : Nat} (h : ∀ c ∈ cells, a < c.1) :
    stackRead cells a = 0#32 := by
  induction cells with
  | nil => rfl
  | cons c cells ih =>
    have hc := h c (by simp)
    simp only [stackRead, show ¬ c.1 = a by omega, if_false]
    exact ih fun d hd => h d (by simp [hd])

/-- A read at the written key gives the written word. -/
theorem stackRead_write_same {cells : List (Nat × Word)} (h : cells.Pairwise (fun c d => c.1 < d.1))
    (a : Nat) (v : Word) : stackRead (stackWrite cells a v) a = v := by
  induction cells with
  | nil => by_cases hv : v = 0#32 <;> simp [stackWrite, stackRead, hv]
  | cons c cells ih =>
    obtain ⟨hc, ht⟩ := List.pairwise_cons.1 h
    simp only [stackWrite]
    split
    · rename_i hlt
      simp only [stackRead, show ¬ c.1 = a by omega, if_false]
      exact ih ht
    · split
      · rename_i heq
        split
        · rename_i hv
          rw [hv]; exact stackRead_below fun d hd => heq ▸ hc d hd
        · simp [stackRead]
      · split
        · rename_i hv
          rw [hv]
          exact stackRead_below fun d hd => by
            rcases List.mem_cons.1 hd with rfl | hd
            · omega
            · have := hc d hd; omega
        · simp [stackRead]

/-- A read at another key gives what it gave before. -/
theorem stackRead_write_other (cells : List (Nat × Word)) {a b : Nat} (hab : b ≠ a) (v : Word) :
    stackRead (stackWrite cells a v) b = stackRead cells b := by
  induction cells with
  | nil => by_cases hv : v = 0#32 <;> simp [stackWrite, stackRead, hv, Ne.symm hab]
  | cons c cells ih =>
    simp only [stackWrite]
    split
    · simp only [stackRead, ih]
    · split
      · rename_i heq
        subst heq
        split <;> simp [stackRead, Ne.symm hab]
      · split <;> simp [stackRead, Ne.symm hab]

/-- A cell of the written list is the written one or an old one. -/
theorem mem_stackWrite {cells : List (Nat × Word)} {a : Nat} {v : Word} {c : Nat × Word}
    (h : c ∈ stackWrite cells a v) : (c = (a, v) ∧ v ≠ 0#32) ∨ c ∈ cells := by
  induction cells with
  | nil =>
    simp only [stackWrite] at h
    split at h <;> simp_all
  | cons d cells ih =>
    simp only [stackWrite] at h
    split at h
    · rcases List.mem_cons.1 h with rfl | h
      · simp
      · rcases ih h with h | h
        · exact .inl h
        · exact .inr (by simp [h])
    · split at h
      · split at h
        · exact .inr (by simp [h])
        · rcases List.mem_cons.1 h with rfl | h
          · simp_all
          · exact .inr (by simp [h])
      · split at h
        · exact .inr h
        · rcases List.mem_cons.1 h with rfl | h
          · simp_all
          · exact .inr h

/-- Writing keeps the keys rising. -/
theorem stackWrite_sorted {cells : List (Nat × Word)} (h : cells.Pairwise (fun c d => c.1 < d.1))
    (a : Nat) (v : Word) : (stackWrite cells a v).Pairwise (fun c d => c.1 < d.1) := by
  induction cells with
  | nil => by_cases hv : v = 0#32 <;> simp [stackWrite, hv]
  | cons c cells ih =>
    obtain ⟨hc, ht⟩ := List.pairwise_cons.1 h
    simp only [stackWrite]
    split
    · rename_i hlt
      refine List.pairwise_cons.2 ⟨fun d hd => ?_, ih ht⟩
      rcases mem_stackWrite hd with ⟨rfl, -⟩ | hd
      · exact hlt
      · exact hc d hd
    · split
      · rename_i heq
        split
        · exact ht
        · exact List.pairwise_cons.2 ⟨fun d hd => heq ▸ hc d hd, ht⟩
      · split
        · exact h
        · refine List.pairwise_cons.2 ⟨fun d hd => ?_, h⟩
          rcases List.mem_cons.1 hd with rfl | hd
          · show a < c.1; omega
          · have := hc d hd; show a < d.1; omega

/-- Writing an address outside the data region's range keeps the canonical form. -/
theorem stackWrite_wf {cells : List (Nat × Word)} (h : StackWf cells) {a : Nat} (ha : a < 2 ^ 32)
    (hr : inDataRange a = false) (v : Word) : StackWf (stackWrite cells a v) := by
  refine ⟨stackWrite_sorted h.1 a v, fun c hc => ?_⟩
  rcases mem_stackWrite hc with ⟨rfl, hv⟩ | hc
  · exact ⟨hv, ha, hr⟩
  · exact h.2 c hc

/-! ### The data space -/

/-- The range test in numbers. -/
theorem inDataRange_iff {n : Nat} : inDataRange n = true ↔ 0x00010000 ≤ n ∧ n ≤ 0x0001007C := by
  rw [inDataRange, Bool.and_eq_true, decide_eq_true_iff, decide_eq_true_iff]; rfl

/-- Where the routing rule sends an address. -/
theorem route_cases (a : Word) :
    (inDataRange a.toNat = true ∧ a.toNat % 4 = 0 ∧
        route a = .data (Fin.ofNat 32 ((a.toNat - Config.dataBase) / 4))) ∨
      (inDataRange a.toNat = true ∧ a.toNat % 4 ≠ 0 ∧ route a = .misaligned) ∨
      (inDataRange a.toNat = false ∧ route a = .stack a.toNat) := by
  unfold route
  by_cases h : inDataRange a.toNat = true
  · by_cases h4 : a.toNat % 4 = 0 <;> simp [h, h4]
  · simp [h]

/-- The address of data-region slot `k` is `DATA_BASE + 4 * k`. -/
theorem route_data_addr {a : Word} {k : Fin 32} (h : route a = .data k) :
    a.toNat = Config.dataBase + 4 * k.val := by
  rcases route_cases a with ⟨hr, h4, hd⟩ | ⟨-, -, hd⟩ | ⟨-, hd⟩ <;> rw [hd] at h
  · simp only [Route.data.injEq] at h
    subst h
    have hr := inDataRange_iff.1 hr
    show a.toNat = 0x00010000 + 4 * ((a.toNat - 0x00010000) / 4 % 32)
    omega
  · simp at h
  · simp at h

/-- An address of slot `k` is routed to it. -/
theorem route_of_data_addr {a : Word} {k : Fin 32} (h : a.toNat = 0x00010000 + 4 * k.val) :
    route a = .data k := by
  rcases route_cases a with ⟨-, -, hd⟩ | ⟨-, h4, -⟩ | ⟨hr, -⟩
  · rw [hd]; congr 1; apply Fin.ext; show (a.toNat - 0x00010000) / 4 % 32 = k.val; omega
  · omega
  · have : ¬ inDataRange a.toNat = true := by simp [hr]
    rw [inDataRange_iff] at this; omega

/-- An address outside the data region's range is a stack-region key. -/
theorem route_of_stack_addr {a : Word} (h : a.toNat < 0x00010000 ∨ 0x0001007C < a.toNat) :
    route a = .stack a.toNat := by
  rcases route_cases a with ⟨hr, -, -⟩ | ⟨hr, -, -⟩ | ⟨-, hd⟩
  · rw [inDataRange_iff] at hr; omega
  · rw [inDataRange_iff] at hr; omega
  · exact hd

/-- The addresses that have no behaviour, by the range test. -/
theorem misalignedData_iff (a : Word) : MisalignedData a ↔ inDataRange a.toNat = true ∧ a.toNat % 4 ≠ 0 := by
  rw [inDataRange_iff]; unfold MisalignedData; tauto

/-- Every memory write keeps the canonical form. -/
theorem Memory.write_wf {m m' : Memory} {a : Word} {v : Int} (h : m.wf) (hw : m.write a v = .ok m') :
    m'.wf := by
  unfold Memory.write at hw
  rcases route_cases a with ⟨-, -, hd⟩ | ⟨-, -, hd⟩ | ⟨hr, hd⟩ <;> rw [hd] at hw
  · simp only [Except.ok.injEq] at hw; subst hw; exact h
  · simp at hw
  · simp only [Except.ok.injEq] at hw; subst hw
    exact stackWrite_wf h a.isLt hr _

/-- A read and a write of one address stop on the same addresses. -/
theorem Memory.read_error_iff_write_error (m : Memory) (a : Word) (v : Int) (f : Fault) :
    m.read a = .error f ↔ m.write a v = .error f := by
  unfold Memory.read Memory.write
  cases route a <;> simp

/-- The data space after reset is in canonical form. -/
theorem Memory.reset_wf : Memory.reset.wf := by simp [Memory.wf, Memory.reset]

/-- The memory of the reset state is in canonical form. -/
theorem State.reset_mem_wf : State.reset.mem.wf := Memory.reset_wf

/-! ### Meanings and the step -/

/-- What `writeBack` gives. -/
theorem writeBack_eq (rd : Reg) (v : Int) (s : State) :
    writeBack rd v s = .next ((s.writeReg rd v).commit s.pcNext) := rfl

/-- What a load can answer. -/
theorem execLw_cases (rd rs1 : Reg) (imm : BitVec 12) (s : State) :
    (∃ v, s.mem.read (s.effectiveAddress rs1 imm) = .ok v ∧
        execLw rd rs1 imm s = .next ((s.writeReg rd v.toNat).commit s.pcNext)) ∨
      (∃ f, s.mem.read (s.effectiveAddress rs1 imm) = .error f ∧ execLw rd rs1 imm s = .fault f) := by
  unfold execLw
  cases h : s.mem.read (s.effectiveAddress rs1 imm) with
  | ok v => exact .inl ⟨v, rfl, rfl⟩
  | error f => exact .inr ⟨f, rfl, rfl⟩

/-- What a store can answer. -/
theorem execSw_cases (rs1 rs2 : Reg) (imm : BitVec 12) (s : State) :
    (∃ m, s.mem.write (s.effectiveAddress rs1 imm) (s.regVal rs2) = .ok m ∧
        execSw rs1 rs2 imm s = .next ((s.withMem m).commit s.pcNext)) ∨
      (∃ f, s.mem.write (s.effectiveAddress rs1 imm) (s.regVal rs2) = .error f ∧
        execSw rs1 rs2 imm s = .fault f) := by
  unfold execSw
  cases h : s.mem.write (s.effectiveAddress rs1 imm) (s.regVal rs2) with
  | ok v => exact .inl ⟨v, rfl, rfl⟩
  | error f => exact .inr ⟨f, rfl, rfl⟩

/-- Everything an instruction can answer: a halt, a fatal, a commit after at most one register write, a
commit after one store, or the stop of a misaligned access. -/
theorem exec_cases (i : Instr) (s : State) :
    (i = .halt ∧ exec i s = .next (s.appendTrace.halt .sentinel)) ∨
      (i.op = .UNSUPPORTED ∧ exec i s = .next (s.takeFatal .unsupportedInstruction)) ∨
      (∃ rd v pc, i.op ≠ .UNSUPPORTED ∧ exec i s = .next ((s.writeReg rd v).commit pc)) ∨
      (∃ rs1 rs2 imm m, i = .sw rs1 rs2 imm ∧
        s.mem.write (s.effectiveAddress rs1 imm) (s.regVal rs2) = .ok m ∧
        exec i s = .next ((s.withMem m).commit s.pcNext)) ∨
      (∃ f, exec i s = .fault f) := by
  cases i with
  | halt => exact .inl ⟨rfl, rfl⟩
  | xor => exact .inr (.inl ⟨rfl, rfl⟩)
  | blt => exact .inr (.inl ⟨rfl, rfl⟩)
  | bge => exact .inr (.inl ⟨rfl, rfl⟩)
  | bltu => exact .inr (.inl ⟨rfl, rfl⟩)
  | unsupported => exact .inr (.inl ⟨rfl, rfl⟩)
  | lw rd rs1 imm =>
    rcases execLw_cases rd rs1 imm s with ⟨v, -, h⟩ | ⟨f, -, h⟩
    · exact .inr (.inr (.inl ⟨rd, v.toNat, s.pcNext, by simp [Instr.op], h⟩))
    · exact .inr (.inr (.inr (.inr ⟨f, h⟩)))
  | sw rs1 rs2 imm =>
    rcases execSw_cases rs1 rs2 imm s with ⟨m, hm, h⟩ | ⟨f, -, h⟩
    · exact .inr (.inr (.inr (.inl ⟨rs1, rs2, imm, m, rfl, hm, h⟩)))
    · exact .inr (.inr (.inr (.inr ⟨f, h⟩)))
  | beq => exact .inr (.inr (.inl ⟨0#5, 0, _, by simp [Instr.op], rfl⟩))
  | bne => exact .inr (.inr (.inl ⟨0#5, 0, _, by simp [Instr.op], rfl⟩))
  | add => exact .inr (.inr (.inl ⟨_, _, _, by simp [Instr.op], rfl⟩))
  | sub => exact .inr (.inr (.inl ⟨_, _, _, by simp [Instr.op], rfl⟩))
  | or => exact .inr (.inr (.inl ⟨_, _, _, by simp [Instr.op], rfl⟩))
  | srl => exact .inr (.inr (.inl ⟨_, _, _, by simp [Instr.op], rfl⟩))
  | slt => exact .inr (.inr (.inl ⟨_, _, _, by simp [Instr.op], rfl⟩))
  | and => exact .inr (.inr (.inl ⟨_, _, _, by simp [Instr.op], rfl⟩))
  | addi => exact .inr (.inr (.inl ⟨_, _, _, by simp [Instr.op], rfl⟩))
  | jal => exact .inr (.inr (.inl ⟨_, _, _, by simp [Instr.op], rfl⟩))
  | jalr => exact .inr (.inr (.inl ⟨_, _, _, by simp [Instr.op], rfl⟩))

/-- Everything a step can do, by the state's status and fetch. -/
theorem step_cases (s : State) :
    (s.status ≠ .running ∧ step s = .next s) ∨
      (s.status = .running ∧ s.fetch = .misaligned ∧ step s = .fault .misalignedPc) ∨
      (s.status = .running ∧ s.fetch = .outOfRange ∧ step s = .next (s.halt .fetchOutOfRange)) ∨
      (∃ w, s.status = .running ∧ s.fetch = .word w ∧ step s = exec (decode w) s) := by
  unfold step cycle runningStep
  cases hs : s.status with
  | halted c => exact .inl ⟨by simp, rfl⟩
  | fatal k a => exact .inl ⟨by simp, rfl⟩
  | running =>
    cases hf : s.fetch with
    | misaligned => exact .inr (.inl ⟨rfl, rfl, rfl⟩)
    | outOfRange => exact .inr (.inr (.inl ⟨rfl, rfl, rfl⟩))
    | word w => exact .inr (.inr (.inr ⟨w, rfl, rfl, rfl⟩))

end Sys2Proof.Machine
end

