-- ==== Sys2Proof/Laws/PerInstr.lean ====
section
/-! SUPPORT. Per instruction: its encoding matches its row of the opcode table, mask and match. -/

namespace Sys2Proof.Laws

/-- The encoding of the instruction, under its row's mask, is its row's match. -/
def TableMatch.Statement (i : Instr) : Prop := encode i &&& i.tableRow.1 = i.tableRow.2

/-- The row of an R-format word: the two function fields and the opcode. -/
theorem TableMatch.placeR_mask (f7 : BitVec 7) (rs2 rs1 : Reg) (f3 : BitVec 3) (rd : Reg) (op : BitVec 7) :
    placeR f7 rs2 rs1 f3 rd op &&& 0xFE00707F#32 = placeR f7 0#5 0#5 f3 0#5 op := by
  apply BitVec.eq_of_getLsbD_eq
  intro i hi
  simp only [placeR, BitVec.getLsbD_and, BitVec.getLsbD_append]
  interval_cases i <;> simp

/-- The row of an I-format word: `funct3` and the opcode. -/
theorem TableMatch.placeI_mask (imm : BitVec 12) (rs1 : Reg) (f3 : BitVec 3) (rd : Reg) (op : BitVec 7) :
    placeI imm rs1 f3 rd op &&& 0x0000707F#32 = placeI 0#12 0#5 f3 0#5 op := by
  apply BitVec.eq_of_getLsbD_eq
  intro i hi
  simp only [placeI, BitVec.getLsbD_and, BitVec.getLsbD_append]
  interval_cases i <;> simp

/-- The row of `jalr`: the opcode alone (R69). -/
theorem TableMatch.placeI_opcode (imm : BitVec 12) (rs1 : Reg) (f3 : BitVec 3) (rd : Reg) (op : BitVec 7) :
    placeI imm rs1 f3 rd op &&& 0x0000007F#32 = placeI 0#12 0#5 0#3 0#5 op := by
  apply BitVec.eq_of_getLsbD_eq
  intro i hi
  simp only [placeI, BitVec.getLsbD_and, BitVec.getLsbD_append]
  interval_cases i <;> simp

/-- The row of an S-format word. -/
theorem TableMatch.placeS_mask (imm : BitVec 12) (rs2 rs1 : Reg) (f3 : BitVec 3) (op : BitVec 7) :
    placeS imm rs2 rs1 f3 op &&& 0x0000707F#32 = placeS 0#12 0#5 0#5 f3 op := by
  apply BitVec.eq_of_getLsbD_eq
  intro i hi
  simp only [placeS, BitVec.getLsbD_and, BitVec.getLsbD_append]
  interval_cases i <;> simp

/-- The row of a B-format word. -/
theorem TableMatch.placeB_mask (imm : BitVec 13) (rs2 rs1 : Reg) (f3 : BitVec 3) (op : BitVec 7) :
    placeB imm rs2 rs1 f3 op &&& 0x0000707F#32 = placeB 0#13 0#5 0#5 f3 op := by
  apply BitVec.eq_of_getLsbD_eq
  intro i hi
  simp only [placeB, BitVec.getLsbD_and, BitVec.getLsbD_append]
  interval_cases i <;> simp

/-- The row of a J-format word: the opcode. -/
theorem TableMatch.placeJ_mask (imm : BitVec 21) (rd : Reg) (op : BitVec 7) :
    placeJ imm rd op &&& 0x0000007F#32 = placeJ 0#21 0#5 op := by
  apply BitVec.eq_of_getLsbD_eq
  intro i hi
  simp only [placeJ, BitVec.getLsbD_and, BitVec.getLsbD_append]
  interval_cases i <;> simp

theorem TableMatch.halt : TableMatch.Statement .halt := by unfold TableMatch.Statement; decide

theorem TableMatch.add (rd rs1 rs2 : Reg) : TableMatch.Statement (.add rd rs1 rs2) :=
  (TableMatch.placeR_mask _ _ _ _ _ _).trans rfl

theorem TableMatch.sub (rd rs1 rs2 : Reg) : TableMatch.Statement (.sub rd rs1 rs2) :=
  (TableMatch.placeR_mask _ _ _ _ _ _).trans rfl

theorem TableMatch.or (rd rs1 rs2 : Reg) : TableMatch.Statement (.or rd rs1 rs2) :=
  (TableMatch.placeR_mask _ _ _ _ _ _).trans rfl

theorem TableMatch.srl (rd rs1 rs2 : Reg) : TableMatch.Statement (.srl rd rs1 rs2) :=
  (TableMatch.placeR_mask _ _ _ _ _ _).trans rfl

theorem TableMatch.slt (rd rs1 rs2 : Reg) : TableMatch.Statement (.slt rd rs1 rs2) :=
  (TableMatch.placeR_mask _ _ _ _ _ _).trans rfl

theorem TableMatch.and (rd rs1 rs2 : Reg) : TableMatch.Statement (.and rd rs1 rs2) :=
  (TableMatch.placeR_mask _ _ _ _ _ _).trans rfl

theorem TableMatch.addi (rd rs1 : Reg) (imm : BitVec 12) : TableMatch.Statement (.addi rd rs1 imm) :=
  (TableMatch.placeI_mask _ _ _ _ _).trans rfl

theorem TableMatch.lw (rd rs1 : Reg) (imm : BitVec 12) : TableMatch.Statement (.lw rd rs1 imm) :=
  (TableMatch.placeI_mask _ _ _ _ _).trans rfl

theorem TableMatch.sw (rs1 rs2 : Reg) (imm : BitVec 12) : TableMatch.Statement (.sw rs1 rs2 imm) :=
  (TableMatch.placeS_mask _ _ _ _ _).trans rfl

theorem TableMatch.beq (rs1 rs2 : Reg) (offset : BitVec 13) : TableMatch.Statement (.beq rs1 rs2 offset) :=
  (TableMatch.placeB_mask _ _ _ _ _).trans rfl

theorem TableMatch.bne (rs1 rs2 : Reg) (offset : BitVec 13) : TableMatch.Statement (.bne rs1 rs2 offset) :=
  (TableMatch.placeB_mask _ _ _ _ _).trans rfl

theorem TableMatch.jal (rd : Reg) (offset : BitVec 21) : TableMatch.Statement (.jal rd offset) :=
  (TableMatch.placeJ_mask _ _ _).trans rfl

theorem TableMatch.jalr (funct3 : BitVec 3) (rd rs1 : Reg) (imm : BitVec 12) :
    TableMatch.Statement (.jalr funct3 rd rs1 imm) :=
  (TableMatch.placeI_opcode _ _ _ _ _).trans rfl

theorem TableMatch.xor (rd rs1 rs2 : Reg) : TableMatch.Statement (.xor rd rs1 rs2) :=
  (TableMatch.placeR_mask _ _ _ _ _ _).trans rfl

theorem TableMatch.blt (rs1 rs2 : Reg) (offset : BitVec 13) : TableMatch.Statement (.blt rs1 rs2 offset) :=
  (TableMatch.placeB_mask _ _ _ _ _).trans rfl

theorem TableMatch.bge (rs1 rs2 : Reg) (offset : BitVec 13) : TableMatch.Statement (.bge rs1 rs2 offset) :=
  (TableMatch.placeB_mask _ _ _ _ _).trans rfl

theorem TableMatch.bltu (rs1 rs2 : Reg) (offset : BitVec 13) : TableMatch.Statement (.bltu rs1 rs2 offset) :=
  (TableMatch.placeB_mask _ _ _ _ _).trans rfl

/-- The table's `(unsupported)` row has an empty mask. -/
theorem TableMatch.unsupported (word : Word) : TableMatch.Statement (.unsupported word) := by
  simp [TableMatch.Statement, Instr.tableRow]

end Sys2Proof.Laws
end

