-- ==== Sys2Proof/Laws/Text.lean ====
section
/-! SUPPORT. Words and numbers as texts: what is written out reads back. -/

namespace Sys2Proof.Machine

theorem charBit_bitChar (b : Bool) : charBit (bitChar b) = some b := by cases b <;> decide

theorem bitChar_of_charBit {c : Char} {b : Bool} (h : charBit c = some b) : bitChar b = c := by
  unfold charBit at h
  split at h
  · cases h; subst c; rfl
  · split at h
    · cases h; subst c; rfl
    · cases h

@[simp] theorem wordLine_length (w : Word) : (wordLine w).length = 32 := by simp [wordLine]

theorem wordLine_chars (w : Word) : ∀ c ∈ wordLine w, c = '0' ∨ c = '1' := by
  intro c hc
  obtain ⟨i, -, rfl⟩ := List.mem_map.1 hc
  unfold bitChar; split
  · exact .inr rfl
  · exact .inl rfl

theorem wordLine_not_blank (w : Word) : isBlank (wordLine w) = false := by
  have h : wordLine w ≠ [] := by simp [wordLine]
  obtain ⟨c, cs, hc⟩ := List.exists_cons_of_ne_nil h
  rcases wordLine_chars w c (by simp [hc]) with rfl | rfl <;> simp [isBlank, hc, Char.isWhitespace]

/-- What reading a list of bits written out as characters gives. -/
theorem bitsValue_map (bits : List Bool) (acc : Nat) :
    bitsValue acc (bits.map bitChar) = some (bits.foldl (fun (n : Nat) (b : Bool) => 2 * n + b.toNat) acc) := by
  induction bits generalizing acc with
  | nil => rfl
  | cons b bits ih => simp [bitsValue, charBit_bitChar, ih]

/-- A text that reads as a number is a list of bits written out. -/
theorem bitsValue_some {text : Text} {acc n : Nat} (h : bitsValue acc text = some n) :
    ∃ bits : List Bool, text = bits.map bitChar ∧ n = bits.foldl (fun (n : Nat) (b : Bool) => 2 * n + b.toNat) acc := by
  induction text generalizing acc with
  | nil => exact ⟨[], rfl, by simpa [bitsValue] using h.symm⟩
  | cons c cs ih =>
    simp only [bitsValue] at h
    split at h
    case h_1 b hb =>
      obtain ⟨bits, rfl, rfl⟩ := ih h
      exact ⟨b :: bits, by simp [bitChar_of_charBit hb], rfl⟩
    case h_2 => cases h

theorem foldl_bits_lt (bits : List Bool) :
    bits.foldl (fun (n : Nat) (b : Bool) => 2 * n + b.toNat) 0 < 2 ^ bits.length := by
  induction bits using List.reverseRecOn with
  | nil => decide
  | append_singleton bits b ih =>
    have := Bool.toNat_lt b
    simp only [List.foldl_append, List.foldl_cons, List.foldl_nil, List.length_append, List.length_cons,
      List.length_nil, Nat.pow_succ, Nat.zero_add]
    omega

/-- Bit `i` from the left of the number a list of bits spells. -/
theorem foldl_bits_testBit (bits : List Bool) (i : Nat) (h : i < bits.length) :
    (bits.foldl (fun (n : Nat) (b : Bool) => 2 * n + b.toNat) 0).testBit (bits.length - 1 - i) = bits[i] := by
  induction bits using List.reverseRecOn generalizing i with
  | nil => simp at h
  | append_singleton bits b ih =>
    simp only [List.foldl_append, List.foldl_cons, List.foldl_nil, List.length_append, List.length_cons,
      List.length_nil, Nat.zero_add, Nat.add_sub_cancel] at h ⊢
    rcases Nat.lt_or_ge i bits.length with hi | hi
    · rw [List.getElem_append_left hi, ← ih i hi,
        show bits.length - i = (bits.length - 1 - i) + 1 by omega, Nat.testBit_succ]
      congr 1
      have := Bool.toNat_lt b
      omega
    · have : i = bits.length := by omega
      subst this
      cases b <;> simp [Nat.testBit_zero]

/-- The bits of a word, from the left. -/
def wordBits (w : Word) : List Bool := (List.range 32).map fun i => w.getMsbD i

theorem wordLine_eq (w : Word) : wordLine w = (wordBits w).map bitChar := by simp [wordLine, wordBits]

/-- A list of 32 bits is the list of a word's bits. -/
theorem wordBits_ofNat {bits : List Bool} (h : bits.length = 32) :
    wordBits (BitVec.ofNat 32 (bits.foldl (fun (n : Nat) (b : Bool) => 2 * n + b.toNat) 0)) = bits := by
  apply List.ext_getElem (by simp [wordBits, h])
  intro i hi hi'
  have hi'' : i < 32 := by simpa [wordBits] using hi
  have := foldl_bits_testBit bits i hi'
  rw [h] at this
  simp only [wordBits, List.getElem_map, List.getElem_range, BitVec.getMsbD, hi'', decide_true,
    Bool.true_and, BitVec.getLsbD_ofNat, ← this, show 32 - 1 - i < 32 by omega]

/-- A word's bits determine it. -/
theorem wordBits_injective {v w : Word} (h : wordBits v = wordBits w) : v = w := by
  apply BitVec.eq_of_getMsbD_eq
  intro i hi
  have := congrArg (fun l => l[i]?) h
  simpa [wordBits, hi] using this

/-- A word written out as a line reads back. -/
theorem wordOfLine_wordLine (w : Word) : wordOfLine (wordLine w) = some w := by
  rw [wordOfLine, wordLine_eq, bitsValue_map, Option.map_some]
  congr 1
  exact wordBits_injective (wordBits_ofNat (by simp [wordBits]))

/-- A line of 32 characters that reads as a word is that word written out. -/
theorem wordLine_of_wordOfLine {line : Text} {w : Word} (hl : line.length = 32)
    (h : wordOfLine line = some w) : line = wordLine w := by
  rw [wordOfLine, Option.map_eq_some_iff] at h
  obtain ⟨n, hn, rfl⟩ := h
  obtain ⟨bits, rfl, rfl⟩ := bitsValue_some hn
  rw [wordLine_eq, wordBits_ofNat (by simpa using hl)]

/-- A decimal digit's character and its value. -/
theorem digitChar_spec {d : Nat} (h : d < 10) :
    d.digitChar.isDigit = true ∧ d.digitChar.toNat - '0'.toNat = d ∧ d.digitChar ≠ '-' := by
  interval_cases d <;> decide

theorem digitsValue_append (text : Text) (acc n d : Nat) (h : digitsValue acc text = some n) (hd : d < 10) :
    digitsValue acc (text ++ [d.digitChar]) = some (10 * n + d) := by
  induction text generalizing acc with
  | nil =>
    obtain ⟨h1, h2, -⟩ := digitChar_spec hd
    simp only [digitsValue, Option.some.injEq] at h
    subst h
    simp only [List.nil_append, digitsValue, h1, h2, if_true]
  | cons c cs ih =>
    simp only [digitsValue] at h
    split at h
    case isTrue hc => simp only [List.cons_append, digitsValue, hc, if_true]; exact ih _ h
    case isFalse => cases h

/-- A number written in decimal reads back, and its text starts with a digit. -/
theorem digitsValue_natText (n : Nat) :
    digitsValue 0 (natText n) = some n ∧ ∃ c cs, natText n = c :: cs ∧ c ≠ '-' := by
  induction n using Nat.strongRecOn with
  | ind n ih =>
    rcases Nat.lt_or_ge n 10 with h | h
    · obtain ⟨h1, h2, h3⟩ := digitChar_spec h
      rw [natText, Nat.toDigits_of_lt_base h]
      exact ⟨by simp only [digitsValue, h1, h2, if_true]; simp, _, _, rfl, h3⟩
    · obtain ⟨h1, c, cs, hc, hne⟩ := ih (n / 10) (by omega)
      rw [natText] at h1 hc
      have hs := Nat.toDigits_append_toDigits (b := 10) (by decide) (by omega : 0 < n / 10)
        (Nat.mod_lt n (by decide))
      rw [Nat.div_add_mod, Nat.toDigits_of_lt_base (Nat.mod_lt n (by decide))] at hs
      rw [natText, ← hs]
      refine ⟨?_, c, cs ++ [(n % 10).digitChar], by rw [hc]; rfl, hne⟩
      rw [digitsValue_append _ _ _ _ h1 (Nat.mod_lt n (by decide)), Nat.div_add_mod]

/-- An integer written in decimal reads back. -/
theorem parseInt_intText (v : Int) : parseInt (intText v) = some v := by
  obtain ⟨h, c, cs, hc, hne⟩ := digitsValue_natText v.natAbs
  unfold intText
  split
  case isTrue hv =>
    rw [parseInt, h, hc, List.isEmpty_cons]
    simp only [Bool.false_eq_true, if_false, Option.map_some, Option.some.injEq]
    omega
  case isFalse hv =>
    rw [parseInt.eq_def]
    split
    · rename_i he; rw [he] at hc; cases hc
    · rename_i he; rw [he] at hc; cases hc; exact absurd rfl hne
    · rw [h]
      simp only [Option.map_some, Option.some.injEq]
      omega

theorem intText_natCast (n : Nat) : intText (n : Int) = natText n := by simp [intText]

end Sys2Proof.Machine
end

