-- ==== Sys2Proof/Tests/Slice0.lean ====
section
/-! SUPPORT. Tests on fixed values, each one step or less. Expected values are those of
95_test_vectors.md, named by their identifiers, or are worked out by hand from the rule named. Then, for
every obligation with hypotheses, a theorem that meets them (test_witness_<Obligation>). -/

namespace Sys2Proof.Tests

open Sys2Proof Sys2Proof.Machine

/-! ### Helpers -/

/-- A running machine: reset, with the given registers, memory cells and `pc`. -/
def machine (regs : List (Reg × Word)) (cells : List (Word × Word)) (pc : Word) : State :=
  let s := regs.foldl (fun s r => s.writeReg r.1 r.2.toNat) { State.reset with pc := pc }
  cells.foldl (fun s c => match s.mem.write c.1 c.2.toNat with
    | .ok m => s.withMem m
    | .error _ => s) s

/-- The outcome of fetching and running a word. -/
def fetched (w : Word) (s : State) : Host.Outcome State Fault Refusal := step (s.placeFetched w)

/-- The outcome of running a word, for a `pc` too large to place the word at. -/
def ran (w : Word) (s : State) : Host.Outcome State Fault Refusal := exec (decode w) s

/-- The outcome is a next state with the property. -/
def gives (o : Host.Outcome State Fault Refusal) (p : State → Bool) : Bool :=
  match o with
  | .next t => p t
  | .fault _ => false
  | .refused _ => false

/-- The outcome is the fault. -/
def stops (o : Host.Outcome State Fault Refusal) (f : Fault) : Bool :=
  match o with
  | .next _ => false
  | .fault g => g == f
  | .refused _ => false

/-- A completed step: still running, one trace entry, the given `pc` and register. -/
def completes (o : Host.Outcome State Fault Refusal) (pc : Word) (r : Reg) (v : Word) : Bool :=
  gives o fun t => t.status == .running && t.trace == [t.snapshot] && t.pc == pc && t.readReg r == v

/-- A completed step that leaves a memory cell with the given value. -/
def leavesCell (o : Host.Outcome State Fault Refusal) (a v : Word) : Bool :=
  gives o fun t => t.status == .running && t.trace == [t.snapshot] &&
    (match t.mem.read a with
     | .ok x => x == v
     | .error _ => false)

/-- The fatal step: the status names the address, the trace has no entry, `pc` stays. -/
def isFatalAt (o : Host.Outcome State Fault Refusal) (addr : Word) : Bool :=
  gives o fun t => t.status == .fatal .unsupportedInstruction addr && t.trace == [] && t.pc == addr

/-! ### Well-formedness refuses -/

/-- R59: bit 0 of a branch offset is no bit of the word. -/
theorem test_wf_oddBranch : (Instr.beq 5 6 9).wellFormed = false ∧ (Instr.bne 5 6 9).wellFormed = false := by
  decide
/-- R61: `beq zero, zero, 0` is the halt sentinel. -/
theorem test_wf_beqIsSentinel : (Instr.beq 0 0 0).wellFormed = false := by decide
/-- R60 -/
theorem test_wf_oddJal : (Instr.jal 1 1).wellFormed = false := by decide
theorem test_wf_oddOther : (Instr.blt 0 5 1).wellFormed = false ∧ (Instr.bge 0 5 1).wellFormed = false ∧
    (Instr.bltu 0 5 1).wellFormed = false := by decide
/-- R70: the word of an `addi` is in no illegal class. -/
theorem test_wf_unsupportedLegal : (Instr.unsupported 0x00500513#32).wellFormed = false := by decide
/-- The table has rows of their own for the words of `xor` and `blt`. -/
theorem test_wf_unsupportedNamed : (Instr.unsupported 0x00B2C7B3#32).wellFormed = false ∧
    (Instr.unsupported 0x00004063#32).wellFormed = false := by decide
theorem test_wf_accepts : (Instr.beq 0 0 16).wellFormed = true ∧ (Instr.jal 0 2).wellFormed = true ∧
    (Instr.unsupported 0x00000073#32).wellFormed = true := by decide

/-! ### Decoding words written out bit by bit -/

/-- `add x10, x5, x6`: funct7 rs2 rs1 funct3 rd opcode (V-DEC-4). -/
theorem test_decode_add : decode 0b0000000_00110_00101_000_01010_0110011#32 = .add 10 5 6 := by decide
/-- V-DEC-5 -/
theorem test_decode_sub : decode 0b0100000_00110_00101_000_01010_0110011#32 = .sub 10 5 6 := by decide
/-- L1-1 -/
theorem test_decode_or : decode 0b0000000_00110_00101_110_01010_0110011#32 = .or 10 5 6 := by decide
/-- L1-1 -/
theorem test_decode_srl : decode 0b0000000_00110_00101_101_01010_0110011#32 = .srl 10 5 6 := by decide
/-- L1-1 -/
theorem test_decode_slt : decode 0b0000000_00110_00101_010_01010_0110011#32 = .slt 10 5 6 := by decide
/-- V-DEC-33 -/
theorem test_decode_and : decode 0b0000000_01011_00101_111_01111_0110011#32 = .and 15 5 11 := by decide
/-- V-DEC-34 -/
theorem test_decode_xor : decode 0b0000000_01011_00101_100_01111_0110011#32 = .xor 15 5 11 := by decide
/-- The source's worked encoding, R97. -/
theorem test_decode_addi : decode 0b000000000101_00000_000_01010_0010011#32 = .addi 10 0 5 := by decide
/-- V-DEC-7: displacement -4 -/
theorem test_decode_lw : decode 0b111111111100_00010_010_01010_0000011#32 = .lw 10 2 0xFFC := by decide
/-- V-DEC-10: displacement -4 split 7 and 5 -/
theorem test_decode_sw : decode 0b1111111_01010_00010_010_11100_0100011#32 = .sw 2 10 0xFFC := by decide
/-- V-DEC-15: offset 4094 -/
theorem test_decode_beq : decode 0b0_111111_00000_00000_000_1111_1_1100011#32 = .beq 0 0 4094 := by decide
/-- V-DEC-13: offset -8 -/
theorem test_decode_bne : decode 0b1_111111_00000_00101_001_1100_1_1100011#32 = .bne 5 0 0x1FF8 := by decide
/-- V-BR-1, V-BR-2, V-BR-3 -/
theorem test_decode_otherBranches : decode 0b0_000000_00101_00000_100_0100_0_1100011#32 = .blt 0 5 8 ∧
    decode 0b0_000000_00101_00000_101_0100_0_1100011#32 = .bge 0 5 8 ∧
    decode 0b0_000000_00101_00000_110_0100_0_1100011#32 = .bltu 0 5 8 := by decide
/-- V-DEC-20: offset -4 -/
theorem test_decode_jal : decode 0b1_1111111110_1_11111111_00000_1101111#32 = .jal 0 0x1FFFFC := by decide
/-- V-DEC-23 to V-DEC-25: bits 11, 12 and 1 of the offset -/
theorem test_decode_jalBits : decode 0x001000EF#32 = .jal 1 2048 ∧ decode 0x000010EF#32 = .jal 1 4096 ∧
    decode 0x002002EF#32 = .jal 5 2 := by decide
/-- V-DEC-27, V-DEC-28: `funct3` is not tested -/
theorem test_decode_jalr : decode 0b111111111111_00101_000_00001_1100111#32 = .jalr 0 1 5 0xFFF ∧
    decode 0x0002F0E7#32 = .jalr 7 1 5 0 := by decide
/-- V-DEC-29 -/
theorem test_decode_halt : decode 0b0_000000_00000_00000_000_0000_0_1100011#32 = .halt := by decide
/-- V-UNS-1, V-UNS-3, V-UNS-7, V-UNS-12 -/
theorem test_decode_unsupported : decode 0x00000000#32 = .unsupported 0x00000000#32 ∧
    decode 0x00000073#32 = .unsupported 0x00000073#32 ∧
    decode 0x02628533#32 = .unsupported 0x02628533#32 ∧
    decode 0x00000062#32 = .unsupported 0x00000062#32 := by decide
/-- The immediates of V-DEC-2, V-DEC-9, V-DEC-14 and V-DEC-21, all the most negative. -/
theorem test_decode_lowest : (decodeRecord 0x80000513#32).imm = -2048 ∧
    (decodeRecord 0x80A2A023#32).imm = -2048 ∧ (decodeRecord 0x80000063#32).imm = -4096 ∧
    (decodeRecord 0x800000EF#32).imm = -1048576 := by decide
/-- The immediates of V-DEC-3, V-DEC-8, V-DEC-15 and V-DEC-22, all the largest. -/
theorem test_decode_highest : (decodeRecord 0x7FF00513#32).imm = 2047 ∧
    (decodeRecord 0x7EA2AFA3#32).imm = 2047 ∧ (decodeRecord 0x7E000FE3#32).imm = 4094 ∧
    (decodeRecord 0x7FFFF0EF#32).imm = 1048574 := by decide
/-- R73 with R62: an unsupported word of a decoded opcode has its format's immediate (V-BR-1
offset 8, V-ADDI-10 field 5, V-DEC-10's word with `funct3` = `000` still -4), and R-format has 0 (V-DEC-4). -/
theorem test_decode_unsupportedImm : (decodeRecord 0x00504463#32).imm = 8 ∧
    (decodeRecord 0x00502513#32).imm = 5 ∧ (decodeRecord 0xFEA10E23#32).imm = -4 ∧
    (decodeRecord 0x00628533#32).imm = 0 := by decide
/-- The cross-checks of 00_scope.md R7 on the literals of R4. -/
theorem test_literals : Config.dataLast - Config.dataBase = 4 * (Config.dataWords - 1) ∧
    fieldOpcode Config.haltWord = opcodeBranch ∧ Config.spInit.toNat = 4 * 95 ∧
    Config.xlen = 32 ∧ Config.pcWidth = 32 ∧ Config.ilen = 32 ∧ Config.nregs = 32 ∧
    Config.dataWords = 32 := by decide
/-- The table's numbering: the word itself, 32 bits. -/
theorem test_decodeTableWord : decodeTableWord 32 0x00500513 = some (.addi 10 0 5) ∧
    decodeTableWord 48 0x00500513 = none := by decide

/-! ### ALU -/

/-- V-ADD-2 -/
theorem test_add_wraps : completes (fetched 0x00628533 (machine [(5, 0xFFFFFFFF), (6, 1), (10, 0x55)] [] 0))
    4 10 0 = true := by decide
/-- V-ADD-5 -/
theorem test_add_same : completes (fetched 0x005282B3 (machine [(5, 0x80000001)] [] 0)) 4 5 2 = true := by
  decide
/-- V-SUB-1 -/
theorem test_sub_order : completes (fetched 0x40628533 (machine [(5, 10), (6, 3)] [] 0)) 4 10 7 = true := by
  decide
/-- V-SUB-2 -/
theorem test_sub_wraps : completes (fetched 0x40628533 (machine [(6, 1)] [] 0)) 4 10 0xFFFFFFFF = true := by
  decide
/-- V-OR-1 -/
theorem test_or : completes (fetched 0x0062E533 (machine [(5, 0xF0F0F0F0), (6, 0x0F0F0F0F)] [] 0))
    4 10 0xFFFFFFFF = true := by decide
/-- V-SRL-3 -/
theorem test_srl_amount35 : completes (fetched 0x0062D533 (machine [(5, 0xFFFFFFFF), (6, 0x23)] [] 0))
    4 10 0x1FFFFFFF = true := by decide
/-- V-SRL-6 -/
theorem test_srl_same : completes (fetched 0x0052D2B3 (machine [(5, 0x104)] [] 0)) 4 5 0x10 = true := by
  decide
/-- V-SLT-5 (`SLT_SIGNED = false`) -/
theorem test_slt_less : completes (fetched 0x0062A533 (machine [(5, 1), (6, 0xFFFFFFFF), (10, 7)] [] 0))
    4 10 1 = true := by decide
/-- V-SLT-6 under both readings -/
theorem test_slt_readings : sltResult false 0x80000000 0x7FFFFFFF = 0 ∧
    sltResult true 0x80000000 0x7FFFFFFF = 1 := by decide
/-- V-AND-1 -/
theorem test_and : completes (fetched 0x0062F533 (machine [(5, 0xFFFFFFFF), (6, 0x23)] [] 0))
    4 10 0x23 = true := by decide
/-- V-ADDI-9 -/
theorem test_addi_negative : completes (fetched 0xFF010113 (machine [] [] 0)) 4 2 0x16C = true := by decide
/-- V-ADDI-7: the write to `x0` is discarded, the entry is appended -/
theorem test_addi_x0 : completes (fetched 0x00128013 (machine [(5, 9)] [] 0)) 4 0 0 = true := by decide

/-! ### Load and store -/

/-- V-LW-2 -/
theorem test_lw_slot31 : completes (fetched 0x07C2A503 (machine [(5, 0x10000)] [(0x1007C, 0x4D)] 0))
    4 10 0x4D = true := by decide
/-- V-LW-6 -/
theorem test_lw_misaligned : stops (fetched 0x0022A503 (machine [(5, 0x10000)] [(0x10000, 1)] 0))
    .misalignedDataRegionAccess = true := by decide
/-- V-SW-3 -/
theorem test_sw_pastRegion : leavesCell (fetched 0x08A2A023
    (machine [(5, 0x10000), (10, 0x58)] [(0x1007C, 1)] 0)) 0x10080 0x58 = true := by decide
/-- V-SW-8: no byte overlap in the stack region -/
theorem test_sw_noOverlap : leavesCell (fetched 0x00A021A3 (machine [(10, 6)] [(4, 9)] 0)) 3 6 = true ∧
    leavesCell (fetched 0x00A021A3 (machine [(10, 6)] [(4, 9)] 0)) 4 9 = true := by decide

/-! ### Branches and jumps -/

/-- V-BEQ-1 -/
theorem test_beq_taken : completes (fetched 0x00628463 (machine [(5, 3), (6, 3)] [] 0xC)) 0x14 2 380 = true := by
  decide
/-- V-BEQ-8: the target wraps -/
theorem test_beq_wraps : completes (fetched 0xFE000EE3 (machine [] [] 0)) 0xFFFFFFFC 2 380 = true := by decide
/-- V-BNE-1 -/
theorem test_bne_taken : completes (fetched 0xFE029CE3 (machine [(5, 4)] [] 0x10)) 8 5 4 = true := by decide
/-- V-BNE-2 -/
theorem test_bne_notTaken : completes (fetched 0xFE029CE3 (machine [] [] 0x10)) 0x14 5 0 = true := by decide
/-- V-JAL-4 -/
theorem test_jal_back : completes (ran 0x800000EF (machine [] [] 0x100000)) 0 1 0x100004 = true := by decide
/-- V-JAL-9: link and target wrap -/
theorem test_jal_wraps : completes (ran 0x008000EF (machine [(1, 7)] [] 0xFFFFFFFC)) 4 1 0 = true := by decide
/-- V-JALR-2: the old `x1` gives the target -/
theorem test_jalr_same : completes (fetched 0x000080E7 (machine [(1, 9)] [] 0x10)) 8 1 0x14 = true := by decide
/-- V-JALR-4: bit 1 of the target is kept -/
theorem test_jalr_bit1 : completes (fetched 0x003280E7 (machine [(5, 3)] [] 0)) 6 1 4 = true := by decide

/-! ### Halt, fetch and fatal steps -/

/-- V-HALT-1 -/
theorem test_halt : gives (fetched 0x00000063 (machine [(6, 15)] [] 20)) (fun t =>
    t.status == .halted .sentinel && t.pc == 20 && t.trace == [t.snapshot] && t.readReg 6 == 15) = true := by
  decide
/-- V-HALT-2 -/
theorem test_halt_absorbs : gives (step { State.boot [0x00000063#32] with status := .halted .sentinel })
    (fun t => t == { State.boot [0x00000063#32] with status := .halted .sentinel }) = true := by decide
/-- V-FETCH-2 -/
theorem test_fetch_pastEnd : gives (step { State.boot [0x00500513#32] with pc := 4 }) (fun t =>
    t.status == .halted .fetchOutOfRange && t.pc == 4 && t.trace == []) = true := by decide
/-- V-FETCH-5 -/
theorem test_fetch_misaligned : stops (step { State.boot [0x00500513#32] with pc := 6 }) .misalignedPc = true := by
  decide
/-- V-UNS-5 -/
theorem test_xor_fatal : isFatalAt (fetched 0x0062C533 (machine [] [] 4)) 4 = true := by decide
/-- V-BR-1 -/
theorem test_blt_fatal : isFatalAt (fetched 0x00504463 (machine [(5, 1)] [] 4)) 4 = true := by decide
/-- V-BR-2 -/
theorem test_bge_fatal : isFatalAt (fetched 0x00505463 (machine [(5, 1)] [] 4)) 4 = true := by decide
/-- V-BR-3 -/
theorem test_bltu_fatal : isFatalAt (fetched 0x00506463 (machine [(5, 1)] [] 4)) 4 = true := by decide
/-- V-UNS-2, V-ADDI-11 -/
theorem test_unsupported_fatal : isFatalAt (fetched 0xFFFFFFFF (machine [] [] 8)) 8 = true ∧
    isFatalAt (fetched 0x0012F513 (machine [(5, 3)] [] 4)) 4 = true := by decide

/-! ### Assembler, loader and trace texts -/

/-- The words of a source under the reference's policy. -/
def assembled (source : List String) : List Word := (assemble .omitLine (source.map String.toList)).words

/-- V-ASM-2, V-ASM-3: the immediate is masked -/
theorem test_asm_masks : assembled ["addi a0, zero, 4095"] = [0xFFF00513#32] ∧
    assembled ["addi a0, zero, 4096"] = [0x00000513#32] := by decide
/-- V-ASM-4 -/
theorem test_asm_sentinel : assembled ["beq zero, zero, 0"] = [0x00000063#32] := by decide
/-- V-ASM-5, V-ASM-7, V-ASM-11 -/
theorem test_asm_errors : (assemble .omitLine
    (["and a5, t0, a1", "nop", "beq t0, t1, 3"].map String.toList)) = { words := [], errors := [1, 2, 3] } := by
  decide
/-- V-ASM-6, V-ASM-8, V-ASM-9 -/
theorem test_asm_forms : assembled ["xor a5, t0, a1", "sw a0, -4(sp)", "lw a2, 124(t0)"]
    = [0x00B2C7B3#32, 0xFEA12E23#32, 0x07C2A603#32] := by decide
/-- V-ASM-10 -/
theorem test_asm_backward : assembled ["top: addi t0, t0, -1", "bne t0, zero, top"]
    = [0xFFF28293#32, 0xFE029EE3#32] := by decide
/-- Log entry 19: white space before a label, and between its name and the colon. -/
theorem test_asm_labelSpace : splitLabel "  top: nop".toList = (some "top".toList, " nop".toList) ∧
    splitLabel "top : nop".toList = (none, "top : nop".toList) := by decide
/-- Log entry 18: separators before the mnemonic and after the last operand are dropped. -/
theorem test_asm_outerSeparators : tokens ", addi a0, zero, 5,".toList = tokens "addi a0, zero, 5".toList := by
  decide
/-- V-ASM-12, V-ASM-13 -/
theorem test_asm_forward : assembled ["# comment", "addi a0, zero, 7", "", "jal ra, func", "beq zero, zero, 0",
    "func:", "add a0, a0, a0"] = [0x00700513#32, 0x008000EF#32, 0x00000063#32, 0x00A50533#32] := by decide
/-- R98, the loader's line of the worked example with a blank line before it -/
theorem test_loader : loadLines (["", "00000000010100000000010100010011"].map String.toList)
    = .ok [0x00500513#32] := by rfl
/-- R98: a line of another length -/
theorem test_loader_length : loadLines (["0", "1"].map String.toList) = .error (.formatError 1) := by rfl
/-- L1-4: the halt law's trace texts of `x[2]` and `pc` -/
theorem test_trace_texts : State.reset.snapshot.decimalTexts[0]? = some "0".toList ∧
    State.reset.snapshot.decimalTexts[3]? = some "380".toList ∧
    State.reset.snapshot.binaryTexts[3]? = some "0b00000000000000000000000101111100".toList ∧
    intText (s32 0xFFFFFFFF) = "-1".toList := by decide
/-- L1-2: the one-instruction program -/
theorem test_run_oneInstruction : (runProgram 2 [0x00500513#32]).ending = .halted .fetchOutOfRange ∧
    ((runProgram 2 [0x00500513#32]).trace.map fun e => (e.pc, e.regs[10])) = [(4, 5)] := by decide

/-! ### Witnesses -/

/-- One word of each operation with an immediate, at both ends of the immediate's range. -/
theorem test_witness_ImmediateOfEachFormat :
    [(decodeRecord 0x80000513).op, (decodeRecord 0xFFC12503).op, (decodeRecord 0xFFF280E7).op,
     (decodeRecord 0x80A2A023).op, (decodeRecord 0x7E000FE3).op, (decodeRecord 0x80001063).op,
     (decodeRecord 0x800000EF).op] = [.ADDI, .LW, .JALR, .SW, .BEQ, .BNE, .JAL] ∧
    [(0x00502513#32).extractLsb' 0 7, (0x00028503#32).extractLsb' 0 7, (0x0002F0E7#32).extractLsb' 0 7,
     (0x00A28023#32).extractLsb' 0 7, (0x00504463#32).extractLsb' 0 7, (0x7FFFF0EF#32).extractLsb' 0 7,
     (0x00628533#32).extractLsb' 0 7] =
      [0b0010011#7, 0b0000011#7, 0b1100111#7, 0b0100011#7, 0b1100011#7, 0b1101111#7, 0b0110011#7] := by decide
theorem test_witness_ImmediateRoundTrip :
    sext (bitsImmI (placeI (BitVec.ofInt 12 (-2048)) 0 0 10 opcodeAluImm)) = -2048 ∧
    sext (bitsImmS (placeS (BitVec.ofInt 12 2047) 10 5 2 opcodeStore)) = 2047 ∧
    sext (bitsImmB (placeB (BitVec.ofInt 13 4094) 0 0 0 opcodeBranch)) = 4094 ∧
    sext (bitsImmJ (placeJ (BitVec.ofInt 21 (-1048576)) 1 opcodeJal)) = -1048576 ∧
    (4094 : Int) % 2 = 0 ∧ (-1048576 : Int) % 2 = 0 := by decide
theorem test_witness_FieldRoundTrip : (4094#13).getLsbD 0 = false ∧ (0x1FFFFE#21).getLsbD 0 = false := by decide
theorem test_witness_HaltSentinelIsOneWord : (0x80000063#32 ≠ 0x00000063#32) ∧
    (0x80000063#32).extractLsb' 0 7 = 0b1100011#7 ∧ (0x80000063#32).extractLsb' 12 3 = 0b000#3 := by decide
theorem test_witness_DispatchOnFunctionFields : fieldOpcode 0x00628533 = 0b0110011#7 ∧
    fieldOpcode 0x00500513 = 0b0010011#7 ∧ fieldOpcode 0x07C2A503 = 0b0000011#7 ∧
    fieldOpcode 0x7EA2AFA3 = 0b0100011#7 ∧ fieldOpcode 0x00628463 = 0b1100011#7 ∧
    fieldOpcode 0x008000EF = 0b1101111#7 ∧ (decode 0x4062E533).op = .UNSUPPORTED := by decide
/-- A word of each row, by the words of 95_test_vectors.md. -/
theorem test_witness_TableRowsDecode :
    [0x00628533#32, 0x40628533, 0x0062E533, 0x0062D533, 0x0062A533, 0x00B2F7B3, 0x00B2C7B3].map
      (· &&& 0xFE00707F#32) = [0x33, 0x40000033, 0x6033, 0x5033, 0x2033, 0x7033, 0x4033] ∧
    [0x00500513#32, 0x07C2A503, 0x7EA2AFA3, 0x00628463, 0x00001063, 0x00504463, 0x00505463, 0x00506463].map
      (· &&& 0x0000707F#32) = [0x13, 0x2003, 0x2023, 0x63, 0x1063, 0x4063, 0x5063, 0x6063] ∧
    [0x008000EF#32, 0x0002F0E7].map (· &&& 0x0000007F#32) = [0x6F, 0x67] := by decide
theorem test_witness_DecodeEncodeRoundTrip : (Instr.beq 5 6 0x1000).wellFormed = true ∧
    (Instr.unsupported 0).wellFormed = true := by decide
theorem test_witness_ResetValues : 3 ≤ (3#5).toNat ∧ 3 ≤ (31#5).toNat ∧ ¬ MisalignedData 0 ∧
    ¬ MisalignedData 0x1007C ∧ ¬ MisalignedData 0x1007D := by decide
theorem test_witness_RegisterZero : (1#5) ≠ 0 ∧ (31#5) ≠ 0 ∧ State.reset.readReg 2 = 380 := by decide
theorem test_witness_IllegalClassesAreComplete : illegalWord 0x00000062 = true ∧
    illegalWord 0x4062E533 = true ∧ illegalWord 0x0012F513 = true ∧ illegalWord 0x00028503 = true ∧
    illegalWord 0x00A28023 = true ∧ illegalWord 0x00002063 = true := by decide
theorem test_witness_RegisterWriteMasks : (1#5) ≠ 0 ∧ (31#5) ≠ 0 := by decide
/-- Both ends of the region's range and the addresses beside them. -/
theorem test_witness_MemoryRouting : (0x00010000#32).toNat = 0x00010000 + 4 * (0 : Fin 32).val ∧
    (0x0001007C#32).toNat = 0x00010000 + 4 * (31 : Fin 32).val ∧
    (0x0000FFFF#32).toNat < 0x00010000 ∧ 0x0001007C < (0x0001007D#32).toNat := by decide
theorem test_witness_MisalignedDataStops : MisalignedData 0x10001 ∧ MisalignedData 0x1007B ∧
    ¬ MisalignedData 0x10000 ∧ ¬ MisalignedData 0x1007C ∧ ¬ MisalignedData 0x1007D ∧
    ¬ MisalignedData 0xFFFF := by decide
theorem test_witness_MemWriteThenRead : Memory.reset.wf ∧ ¬ MisalignedData 0x10000 ∧
    ¬ MisalignedData 0x1007D ∧ (0x10004#32) ≠ 0x10000 := by decide
theorem test_witness_StackCellsAreIndependent : Memory.reset.wf ∧ (0xFFFF#32).toNat < 0x00010000 ∧
    0x0001007C < (0x1007D#32).toNat ∧ (0x1007C#32) ≠ 0x1007D := by decide
/-- A memory whose cell was written and cleared again is the memory never written. -/
theorem test_witness_MemoryIsWhatItReads :
    (machine [] [(8, 5), (8, 0)] 0).mem.wf ∧ Memory.reset.wf ∧
    (machine [] [(8, 5), (8, 0)] 0).mem = Memory.reset := by decide
theorem test_witness_LwResult : ¬ MisalignedData ((machine [] [] 0).effectiveAddress 2 0xFFC) ∧
    ¬ MisalignedData ((machine [(5, 0x10000)] [] 0).effectiveAddress 5 124) := by decide
theorem test_witness_SwResult : (machine [] [] 0).mem.wf ∧
    ¬ MisalignedData ((machine [(5, 0x10000)] [] 0).effectiveAddress 5 128) := by decide
theorem test_witness_LoadStoreAddressAndStops :
    MisalignedData ((machine [(5, 0x10000)] [] 0).effectiveAddress 5 2) ∧
    ¬ MisalignedData ((machine [(5, 0x10000)] [] 0).effectiveAddress 5 125) := by decide
theorem test_witness_LoadAfterStore : (machine [] [] 0).mem.wf ∧
    ¬ MisalignedData ((machine [] [] 0).effectiveAddress 2 0xFFC) ∧
    (machine [] [] 0).effectiveAddress 0 0x178 = (machine [] [] 0).effectiveAddress 2 0xFFC := by decide
/-- The backward branch of P1, taken as `beq` and as `bne`; the forward reach of 4094 bytes; distance 0. -/
theorem test_witness_BranchDisplacement :
    (8 < 2 ^ 32 ∧ ((8 : Nat) - (machine [(5, 4)] [] 16).pc.toNat : Int) % 2 = 0 ∧
      -4096 ≤ ((8 : Nat) - (machine [(5, 4)] [] 16).pc.toNat : Int) ∧
      ((8 : Nat) - (machine [(5, 4)] [] 16).pc.toNat : Int) ≤ 4094 ∧
      (machine [(5, 4)] [] 16).readReg 6 = (machine [(5, 4)] [] 16).readReg 0 ∧
      ¬ ((6 : Reg) = 0 ∧ (0 : Reg) = 0 ∧ 8 = (machine [(5, 4)] [] 16).pc.toNat) ∧
      (machine [(5, 4)] [] 16).readReg 5 ≠ (machine [(5, 4)] [] 16).readReg 0) ∧
    ((4094 : Nat) - (machine [] [] 0).pc.toNat : Int) = 4094 ∧
    ¬ ((5 : Reg) = 0 ∧ (5 : Reg) = 0 ∧ 16 = (machine [] [] 16).pc.toNat) := by decide
/-- A running machine about to run each of the words the statements on `step` speak of. -/
def placed (w : Word) : State := (machine [(5, 0x10000)] [] 4).placeFetched w

theorem test_witness_HaltSentinel : (placed 0x00000063).status = .running ∧
    (placed 0x00000063).pc.toNat % 4 = 0 ∧
    (placed 0x00000063).imem[(placed 0x00000063).pc.toNat / 4]? = some 0x00000063#32 := by decide
theorem test_witness_FatalDependsOnTheWordAlone : (placed 0x00000073).status = .running ∧
    (placed 0x00000073).pc.toNat % 4 = 0 ∧
    (placed 0x00000073).imem[(placed 0x00000073).pc.toNat / 4]? = some 0x00000073#32 ∧
    illegalWord 0x00000073 = true ∧ illegalWord 0x00628533 = false := by decide
theorem test_witness_FatalDependsOnTheWordAlone_legal :
    (placed 0x00628533).imem[(placed 0x00628533).pc.toNat / 4]? = some 0x00628533#32 ∧
    ∃ t, step (placed 0x00628533) = .next t := ⟨by decide, _, rfl⟩
theorem test_witness_OtherBranchesAreFatal :
    (placed 0x00004063).imem[(placed 0x00004063).pc.toNat / 4]? = some 0x00004063#32 ∧
    (0x00004063#32).extractLsb' 0 7 = 0b1100011#7 ∧ (0x00004063#32).extractLsb' 12 3 ≠ 0b000#3 ∧
    (0x00004063#32).extractLsb' 12 3 ≠ 0b001#3 := by decide
theorem test_witness_StepRunsDecoded : (placed 0x00628533).status = .running ∧
    (placed 0x00628533).pc.toNat % 4 = 0 ∧
    (placed 0x00628533).imem[(placed 0x00628533).pc.toNat / 4]? = some 0x00628533#32 := by decide
theorem test_witness_PlacedWordRuns : State.reset.status = .running ∧ State.reset.pc.toNat % 4 = 0 ∧
    0x00500513 < 2 ^ 32 ∧ (State.reset.withFetchWord 32 0x00500513).imem = [0x00500513#32] := by decide
theorem test_witness_FetchStopsAndEnds : (machine [] [] 6).status = .running ∧
    (machine [] [] 6).pc.toNat % 4 ≠ 0 ∧ (machine [] [] 0).pc.toNat % 4 = 0 ∧
    (machine [] [] 0).imem.length ≤ (machine [] [] 0).pc.toNat / 4 := by decide
theorem test_witness_TerminalStatesAbsorb :
    (State.reset.halt .fetchOutOfRange).status ≠ .running ∧
    (State.reset.takeFatal .unsupportedInstruction).status ≠ .running := by decide
theorem test_witness_StepStopsOnlyWhereSaid : step (machine [] [] 6) = .fault .misalignedPc ∧
    step (placed 0x0022A503) = .fault .misalignedDataRegionAccess ∧
    step (placed 0x00A2A0A3) = .fault .misalignedDataRegionAccess := ⟨rfl, rfl, rfl⟩
theorem test_witness_StatusChangesOnlySo :
    (∃ t, step (placed 0x00000063) = .next t ∧ t.status ≠ (placed 0x00000063).status) ∧
    (∃ t, step (machine [] [] 4) = .next t ∧ t.status ≠ (machine [] [] 4).status) ∧
    (∃ t, step (placed 0x00000073) = .next t ∧ t.status ≠ (placed 0x00000073).status) :=
  ⟨⟨_, rfl, by decide⟩, ⟨_, rfl, by decide⟩, ⟨_, rfl, by decide⟩⟩
/-- One completed step, one halt step, one fatal step: the two sides of the statement's case. -/
theorem test_witness_TraceGrowsByOneSnapshot :
    (∃ t, step (placed 0x00628533) = .next t ∧ t.status = .running) ∧
    (∃ t, step (placed 0x00000063) = .next t ∧ t.status = .halted .sentinel) ∧
    (∃ t, step (placed 0x00000073) = .next t ∧
      t.status = .fatal .unsupportedInstruction 4) :=
  ⟨⟨_, rfl, by decide⟩, ⟨_, rfl, by decide⟩, ⟨_, rfl, by decide⟩⟩
theorem test_witness_InstructionStoreNeverChanges : ∃ t, step (placed 0x00A2A023) = .next t := ⟨_, rfl⟩
theorem test_witness_OnlySwWritesMemory : ∃ t, step (placed 0x00628533) = .next t ∧
    (placed 0x00628533).fetch = .word 0x00628533 ∧ (decodeRecord 0x00628533).op ≠ .SW :=
  ⟨_, rfl, by decide, by decide⟩
/-- `add x10, x5, x6` in two states that differ in a register the instruction does not read. -/
theorem test_witness_RegistersReadAndWritten :
    (machine [(5, 7), (7, 9)] [] 4).pc = (machine [(5, 7)] [] 4).pc ∧
    (machine [(5, 7), (7, 9)] [] 4).mem = (machine [(5, 7)] [] 4).mem ∧
    (∀ r ∈ (Instr.add 10 5 6).sources,
      (machine [(5, 7), (7, 9)] [] 4).readReg r = (machine [(5, 7)] [] 4).readReg r) ∧
    (∃ t, exec (.add 10 5 6) (machine [(5, 7)] [] 4) = .next t) ∧
    (Instr.add 10 5 6).dest ≠ some 5 ∧ (Instr.add 10 5 6).dest = some 10 :=
  ⟨by decide, by decide, by decide, ⟨_, rfl⟩, by decide, by decide⟩
theorem test_witness_StepKeepsInvariant : (State.boot [0x00500513#32]).Inv ∧
    ∃ t, step (State.boot [0x00500513#32]) = .next t :=
  ⟨⟨by decide, by decide, by decide, trivial, fun e he => absurd he (List.not_mem_nil), .inl rfl⟩, _, rfl⟩
theorem test_witness_BlocksRefineStep : (placed 0x00628533).status = .running := by decide
/-- V-FETCH-1 ends within its fuel; P14 does not. -/
theorem test_witness_FuelIsOnlyACap : (runFuel 1 State.reset).1 ≠ .outOfFuel ∧
    (runFuel 2 (State.boot [0x0000006F#32])).1 = .outOfFuel := by decide
theorem test_witness_RunEndMatchesStatus :
    (runFuel 1 State.reset).1 = .halted .fetchOutOfRange ∧
    (runFuel 1 (placed 0x00000073)).1 = .fatal .unsupportedInstruction 4 ∧
    (runFuel 1 (machine [] [] 6)).1 = .unspecified .misalignedPc := by decide
theorem test_witness_TraceTextsSpellTheSnapshot :
    binaryText 0 ∈ State.reset.snapshot.binaryTexts := by decide
theorem test_witness_LinesLoadAsWords : wordLine 0x00500513 ∈ [0x00500513#32].map wordLine ∧
    '1' ∈ wordLine 0x00500513 := by decide
theorem test_witness_LoaderAcceptsOnlyBinaryLines :
    loadLines (["  ", "00000000000000000000000001100011"].map String.toList) = .ok [0x00000063#32] := by rfl
theorem test_witness_PassOneAddresses :
    let source := ["a:", "nop", "b: nop", "c:"].map String.toList
    let p := pass1 1 0 source
    p.1 = [("a".toList, 0), ("b".toList, 4), ("c".toList, 8)] ∧
      (p.2[1]?).map (·.addr) = some 4 ∧ source.map lineLabel =
        [some "a".toList, none, some "b".toList, some "c".toList] ∧
      source.map holdsInstruction = [false, true, true, false] := by decide
theorem test_witness_MnemonicsAndOperations :
    asmText [] 0 "or a0, t0, t1".toList = some 0x0062E533#32 ∧
    asmText [] 0 "bgeu a0, t0, 0".toList = none := by decide
theorem test_witness_FailuresAreReportedAndOmitted :
    (assemble .omitLine ["add a0, t0, t1".toList]).errors = [] ∧
    (assemble .omitLine ["nop".toList]).errors = [1] ∧
    ((pass1 1 0 (["# c", "", "nop"].map String.toList)).2.map Slot.line) = [3] := by decide

end Sys2Proof.Tests
end

section
/-! ## Sign extension (R9) -/

namespace Sys2Proof.Machine

/-- R9's definition at a width of the form `n + 1`, its sign bit named by its index. -/
theorem sext_eq_ite_getLsbD {n : Nat} (v : BitVec (n + 1)) :
    sext v = if v.getLsbD n then (v.toNat : Int) - 2 ^ (n + 1) else v.toNat :=
  rfl

/-- The sign bit's share of a field's value. -/
theorem toNat_and_two_pow {n : Nat} (v : BitVec (n + 1)) :
    v.toNat &&& 2 ^ n = if v.getLsbD n then 2 ^ n else 0 := by
  rw [Nat.and_two_pow, BitVec.testBit_toNat]
  cases v.getLsbD n <;> simp

/-- A field's value is its low bits plus its sign bit's share. -/
theorem toNat_eq_low_add_signBit {n : Nat} (v : BitVec (n + 1)) :
    v.toNat = (v.toNat &&& (2 ^ n - 1)) + (v.toNat &&& 2 ^ n) := by
  rw [Nat.and_two_pow_sub_one_eq_mod, Nat.and_two_pow, Nat.toNat_testBit, Nat.mul_comm,
    ← Nat.mod_pow_succ, Nat.mod_eq_of_lt v.isLt]

/-- R9's second formula: the sign bit counts with its negated weight. -/
theorem sext_eq_low_sub_signBit {n : Nat} (v : BitVec (n + 1)) :
    sext v = ((v.toNat &&& (2 ^ n - 1) : Nat) : Int) - (v.toNat &&& 2 ^ n : Nat) := by
  have hsum := toNat_eq_low_add_signBit v
  have hsign := toNat_and_two_pow v
  rw [sext_eq_ite_getLsbD]
  by_cases hbit : v.getLsbD n
  · rw [if_pos hbit] at hsign ⊢
    have hweight : ((v.toNat &&& 2 ^ n : Nat) : Int) = 2 ^ n := mod_cast hsign
    rw [pow_succ]
    omega
  · rw [if_neg hbit] at hsign ⊢
    omega

/-- R9's range, the two's-complement reading's. -/
theorem sext_range {n : Nat} (v : BitVec (n + 1)) : -(2 ^ n) ≤ sext v ∧ sext v ≤ 2 ^ n - 1 := by
  rw [sext_eq_toInt]
  exact ⟨BitVec.le_toInt v, Int.le_sub_one_of_lt BitVec.toInt_lt⟩

/-- Settles O1: R9's definition, its second formula and its range, each a lemma of its own. -/
theorem signExtensionFormula : Obligations.SignExtensionFormula :=
  fun _ v => ⟨sext_eq_ite_getLsbD v, sext_eq_low_sub_signBit v, sext_range v⟩

end Sys2Proof.Machine
end

section
/-! ## The state (R12, R25, R28 to R32) -/

namespace Sys2Proof.Machine

/-! ### Words and registers -/

/-- Narrowing an integer is reduction modulo `2^32`. -/
theorem toNat_u32 (v : Int) : ((u32 v).toNat : Int) = v % 2 ^ 32 := by
  rw [u32, BitVec.toNat_ofInt]
  exact Int.toNat_of_nonneg (Int.emod_nonneg v (by decide))

/-- R12: an index other than 0 reads its stored value. -/
theorem State.readReg_of_ne_zero (s : State) {i : Reg} (hi : i ≠ 0#5) : s.readReg i = s.regs[i.toNat]'i.isLt :=
  if_neg hi

/-- Settles O14: index 0 reads 0, every other index its stored value, and a write to index 0 is dropped. -/
theorem registerZero : Obligations.RegisterZero :=
  fun s _ v => ⟨s.readReg_zero, s.readReg_of_ne_zero, s.writeReg_zero v⟩

/-! ### Reads and writes of the data space, by route -/

section Routes

variable (m : Memory) {a : Word} {v : Int} {k : Fin Config.dataWords} {key : Nat}

theorem Memory.read_of_route_data (h : route a = .data k) : m.read a = .ok m.data[k] := by
  rw [Memory.read, h]

theorem Memory.read_of_route_stack (h : route a = .stack key) : m.read a = .ok (stackRead m.stack key) := by
  rw [Memory.read, h]

theorem Memory.write_of_route_data (h : route a = .data k) :
    m.write a v = .ok { m with data := m.data.set k.val (u32 v) k.isLt } := by
  rw [Memory.write, h]

theorem Memory.write_of_route_stack (h : route a = .stack key) :
    m.write a v = .ok { m with stack := stackWrite m.stack key (u32 v) } := by
  rw [Memory.write, h]

end Routes

/-- Only the misaligned addresses of the data region have no cell (R41). -/
theorem route_cases_of_not_misalignedData {a : Word} (ha : ¬ MisalignedData a) :
    (∃ k, route a = .data k) ∨ route a = .stack a.toNat := by
  rw [misalignedData_iff] at ha
  rcases route_cases a with ⟨-, -, hd⟩ | ⟨hr, h4, -⟩ | ⟨-, hs⟩
  · exact .inl ⟨_, hd⟩
  · exact absurd ⟨hr, h4⟩ ha
  · exact .inr hs

/-- A stack-region cell's key is the address itself. -/
theorem route_stack_key {a : Word} {key : Nat} (h : route a = .stack key) : key = a.toNat := by
  rcases route_cases a with ⟨-, -, hd⟩ | ⟨-, -, hd⟩ | ⟨-, hd⟩ <;> rw [hd] at h
  · cases h
  · cases h
  · exact (Route.stack.inj h).symm

/-- No two addresses share a cell. -/
theorem route_injective {a b : Word} (hb : route b = route a) (ha : ¬ MisalignedData a) : b = a := by
  apply BitVec.eq_of_toNat_eq
  rcases route_cases_of_not_misalignedData ha with ⟨k, hk⟩ | hs
  · rw [route_data_addr hk, route_data_addr (hb.trans hk)]
  · exact (route_stack_key (hb.trans hs)).symm

/-! ### What a read gives after a write (R29) -/

/-- A write stops on the misaligned addresses of the data region only. -/
theorem Memory.write_ok_of_not_misalignedData (m : Memory) {a : Word} (v : Int) (ha : ¬ MisalignedData a) :
    ∃ m', m.write a v = .ok m' := by
  rcases route_cases_of_not_misalignedData ha with ⟨k, hk⟩ | hs
  · exact ⟨_, m.write_of_route_data hk⟩
  · exact ⟨_, m.write_of_route_stack hs⟩

/-- A read of the written address gives the written integer, narrowed. -/
theorem Memory.read_write_same {m m' : Memory} {a : Word} {v : Int} (hwf : m.wf) (ha : ¬ MisalignedData a)
    (hw : m.write a v = .ok m') : m'.read a = .ok (u32 v) := by
  rcases route_cases_of_not_misalignedData ha with ⟨k, hk⟩ | hs
  · rw [m.write_of_route_data hk, Except.ok.injEq] at hw
    subst hw
    rw [Memory.read_of_route_data _ hk]
    simp
  · rw [m.write_of_route_stack hs, Except.ok.injEq] at hw
    subst hw
    rw [Memory.read_of_route_stack _ hs, stackRead_write_same hwf.1]

/-- A read of another address gives what it gave before. -/
theorem Memory.read_write_other {m m' : Memory} {a b : Word} {v : Int} (ha : ¬ MisalignedData a) (hba : b ≠ a)
    (hw : m.write a v = .ok m') : m'.read b = m.read b := by
  have hroute : route b ≠ route a := fun h => hba (route_injective h ha)
  rcases route_cases_of_not_misalignedData ha with ⟨k, hk⟩ | hs
  · rw [m.write_of_route_data hk, Except.ok.injEq] at hw
    subst hw
    cases hb : route b with
    | data j =>
      have hkj : ¬ k.val = j.val := fun h => hroute (by rw [hk, hb, Fin.ext h])
      rw [Memory.read_of_route_data _ hb, Memory.read_of_route_data _ hb]
      simp [hkj]
    | misaligned | stack => rw [Memory.read, Memory.read, hb]
  · rw [m.write_of_route_stack hs, Except.ok.injEq] at hw
    subst hw
    cases hb : route b with
    | data | misaligned => rw [Memory.read, Memory.read, hb]
    | stack key =>
      have hkey : key ≠ a.toNat := fun h => hroute (by rw [hb, hs, h])
      rw [Memory.read_of_route_stack _ hb, Memory.read_of_route_stack _ hb, stackRead_write_other _ hkey]

/-- Settles O18: by the route of the written address, a data-region slot or a stack-region cell. -/
theorem memWriteThenRead : Obligations.MemWriteThenRead := by
  intro m a v hwf ha
  obtain ⟨m', hw⟩ := m.write_ok_of_not_misalignedData v ha
  exact ⟨m', hw, Memory.write_wf hwf hw, ⟨u32 v, Memory.read_write_same hwf ha hw, toNat_u32 v⟩,
    fun _ hba => Memory.read_write_other ha hba hw⟩

/-! ### A canonical memory is what it reads (R25, R28) -/

/-- In a list of rising keys a listed cell is the one its key reads. -/
theorem stackRead_of_mem {cells : List (Nat × Word)} (h : cells.Pairwise (fun c d => c.1 < d.1))
    {c : Nat × Word} (hc : c ∈ cells) : stackRead cells c.1 = c.2 := by
  induction cells with
  | nil => cases hc
  | cons d cells ih =>
    obtain ⟨hd, ht⟩ := List.pairwise_cons.1 h
    rcases List.mem_cons.1 hc with rfl | hc
    · exact if_pos rfl
    · rw [stackRead, if_neg (hd c hc).ne, ih ht hc]

/-- A key that reads something other than 0 is listed with what it reads. -/
theorem mem_of_stackRead_ne_zero {cells : List (Nat × Word)} {key : Nat} (h : stackRead cells key ≠ 0#32) :
    (key, stackRead cells key) ∈ cells := by
  induction cells with
  | nil => exact absurd rfl h
  | cons d cells ih =>
    rw [stackRead] at h ⊢
    split_ifs at h ⊢ with hkey
    · exact hkey ▸ List.mem_cons_self
    · exact List.mem_cons_of_mem _ (ih h)

/-- The address of a key outside the data region's range is routed to that key. -/
theorem route_ofNat_of_not_inDataRange {key : Nat} (hlt : key < 2 ^ 32) (hr : inDataRange key = false) :
    route (BitVec.ofNat 32 key) = .stack key := by
  have hkey : (BitVec.ofNat 32 key).toNat = key := by rw [BitVec.toNat_ofNat, Nat.mod_eq_of_lt hlt]
  unfold route
  rw [hkey, hr]
  simp

/-- The stack region's cells are the words other than 0 that the addresses outside the data region's range
read. -/
theorem Memory.mem_stack_iff_read {m : Memory} (hwf : m.wf) (c : Nat × Word) :
    c ∈ m.stack ↔ (c.2 ≠ 0#32 ∧ c.1 < 2 ^ 32 ∧ inDataRange c.1 = false) ∧
      m.read (BitVec.ofNat 32 c.1) = .ok c.2 := by
  obtain ⟨hsorted, hcells⟩ := hwf
  constructor
  · intro hc
    obtain ⟨hne, hlt, hr⟩ := hcells c hc
    refine ⟨⟨hne, hlt, hr⟩, ?_⟩
    rw [m.read_of_route_stack (route_ofNat_of_not_inDataRange hlt hr), stackRead_of_mem hsorted hc]
  · rintro ⟨⟨hne, hlt, hr⟩, hread⟩
    rw [m.read_of_route_stack (route_ofNat_of_not_inDataRange hlt hr), Except.ok.injEq] at hread
    have hmem := mem_of_stackRead_ne_zero (hread ▸ hne)
    rwa [hread] at hmem

/-- Slot `k` of the data region is what its address reads. -/
theorem Memory.read_slotAddr (m : Memory) (k : Fin Config.dataWords) :
    m.read (BitVec.ofNat 32 (0x00010000 + 4 * k.val)) = .ok m.data[k] := by
  apply m.read_of_route_data
  apply route_of_data_addr
  have hk := dataSlot_lt k
  have hlt : 0x00010000 + 4 * k.val < 2 ^ 32 := by omega
  exact (BitVec.toNat_ofNat ..).trans (Nat.mod_eq_of_lt hlt)

/-- Settles O20: each data-region slot and each stack-region cell is determined by a read. -/
theorem memoryIsWhatItReads : Obligations.MemoryIsWhatItReads := by
  intro m m' hwf hwf' hread
  have hdata : m.data = m'.data := by
    apply Vector.ext
    intro k hk
    have hslot := hread (BitVec.ofNat 32 (0x00010000 + 4 * k))
    rw [m.read_slotAddr ⟨k, hk⟩, m'.read_slotAddr ⟨k, hk⟩] at hslot
    exact Except.ok.inj hslot
  have hcells : ∀ c, c ∈ m.stack ↔ c ∈ m'.stack := fun c => by
    rw [Memory.mem_stack_iff_read hwf, Memory.mem_stack_iff_read hwf', hread]
  have hstack : m.stack = m'.stack := hwf.1.eq_of_mem_iff hwf'.1 hcells
  cases m
  cases m'
  congr

/-! ### The trace (R30) -/

/-- R30: a snapshot holds the registers as they read. -/
theorem State.snapshot_regs (s : State) (i : Fin Config.nregs) :
    s.snapshot.regs[i] = s.readReg (BitVec.ofFin i) := by
  simp [State.snapshot]

/-- What one step does to the trace and, at the sentinel, to `pc`. -/
theorem step_trace {s t : State} (h : step s = .next t) :
    t.trace =
      (if s.status = .running ∧ (t.status = .running ∨ t.status = .halted .sentinel)
      then s.trace ++ [t.snapshot] else s.trace) ∧
    (t.status = .halted .sentinel → t.pc = s.pc) := by
  rcases step_cases s with ⟨hs, he⟩ | ⟨-, -, he⟩ | ⟨-, -, he⟩ | ⟨w, hs, -, he⟩ <;> rw [he] at h
  · cases h
    exact ⟨by rw [if_neg fun hc => hs hc.1], fun _ => rfl⟩
  · cases h
  · cases h
    simp
  · rcases exec_cases (decode w) s with ⟨-, hx⟩ | ⟨-, hx⟩ | ⟨rd, v, pc, -, hx⟩ |
      ⟨rs1, rs2, imm, m, -, -, hx⟩ | ⟨f, hx⟩ <;> rw [hx] at h <;> cases h
    · simp [hs]
    · simp
    · simp [hs]
    · simp [hs]

/-- Settles O46: what a step appends, by the cases of the step, and what a snapshot holds. -/
theorem traceGrowsByOneSnapshot : Obligations.TraceGrowsByOneSnapshot := by
  intro s t h
  obtain ⟨htrace, hpc⟩ := step_trace h
  exact ⟨htrace, hpc, rfl, t.snapshot_zero, t.snapshot_regs⟩

/-! ### Reset (R32) -/

/-- The registers after reset, whatever program is supplied. -/
theorem State.boot_readReg (program : List InstrWord) (i : Reg) :
    (State.boot program).readReg i = if i = 2#5 then 380#32 else 0#32 := by
  by_cases h0 : i = 0#5
  · subst h0
    simp
  · rw [State.readReg_of_ne_zero _ h0]
    have h2 : 2 = i.toNat ↔ i = 2#5 :=
      ⟨fun h => BitVec.eq_of_toNat_eq h.symm, fun h => h ▸ rfl⟩
    simp [State.boot, State.reset, Config.spIndex, Config.spInit, Vector.getElem_set, h2]

/-- Every address that has a cell reads 0 after reset. -/
theorem Memory.reset_read {a : Word} (ha : ¬ MisalignedData a) : Memory.reset.read a = .ok 0#32 := by
  rcases route_cases_of_not_misalignedData ha with ⟨k, hk⟩ | hs
  · rw [Memory.read_of_route_data _ hk]
    simp [Memory.reset]
  · rw [Memory.read_of_route_stack _ hs]
    rfl

/-- Settles O12: the registers and the data space by their reads, every other field by its reset value. -/
theorem resetValues : Obligations.ResetValues := by
  intro program s
  have hother : ∀ r : Reg, 3 ≤ r.toNat → s.readReg r = 0 := by
    intro r hr
    have h2 : r ≠ 2#5 := by rintro rfl; exact absurd hr (by decide)
    exact (State.boot_readReg program r).trans (if_neg h2)
  exact ⟨State.boot_readReg program 0, State.boot_readReg program 1, State.boot_readReg program 2, hother, rfl, rfl,
    fun k => by simp [s, State.boot, State.reset, Memory.reset], rfl, fun _ => Memory.reset_read, rfl, rfl⟩

end Sys2Proof.Machine
end

section
/-! ## Memory: routing, the stack region's cells, the instruction store (R23, R36, R40, R47) -/

namespace Sys2Proof.Machine

/-! ### The routing rule (R36) -/

/-- Slot `k` of the data region is what its address reads and all that it writes. -/
theorem Memory.access_of_data_addr (m : Memory) {a : Word} {k : Fin 32} (h : a.toNat = 0x00010000 + 4 * k.val)
    (v : Int) : m.read a = .ok m.data[k] ∧ m.write a v = .ok { m with data := m.data.set k.val (u32 v) } :=
  ⟨m.read_of_route_data (route_of_data_addr h), m.write_of_route_data (route_of_data_addr h)⟩

/-- An address outside the data region's range reads and writes the stack region at itself. -/
theorem Memory.access_of_stack_addr (m : Memory) {a : Word} (h : a.toNat < 0x00010000 ∨ 0x0001007C < a.toNat)
    (v : Int) : m.read a = .ok (stackRead m.stack a.toNat) ∧
      m.write a v = .ok { m with stack := stackWrite m.stack a.toNat (u32 v) } :=
  ⟨m.read_of_route_stack (route_of_stack_addr h), m.write_of_route_stack (route_of_stack_addr h)⟩

/-- Settles O16: each kind of address by its route, a written word narrowed to itself. -/
theorem memoryRouting : Obligations.MemoryRouting := by
  intro m a v
  constructor
  · intro k ha
    simpa only [u32_toNat] using m.access_of_data_addr ha v.toNat
  · intro ha
    simpa only [u32_toNat] using m.access_of_stack_addr ha v.toNat

/-! ### The stack region's cells (R40) -/

/-- Outside the data region's range no address is misaligned. -/
theorem not_misalignedData_of_stack_addr {a : Word} (h : a.toNat < 0x00010000 ∨ 0x0001007C < a.toNat) :
    ¬ MisalignedData a := by
  unfold MisalignedData
  omega

/-- R40: a write outside the data region's range succeeds, is read back whole, and leaves every other address
and the data region as they were. -/
theorem Memory.write_stack_addr {m : Memory} (hwf : m.wf) {a : Word}
    (h : a.toNat < 0x00010000 ∨ 0x0001007C < a.toNat) (v : Int) :
    ∃ m', m.write a v = .ok m' ∧ m'.read a = .ok (u32 v) ∧ (∀ b, b ≠ a → m'.read b = m.read b) ∧
      m'.data = m.data := by
  have ha := not_misalignedData_of_stack_addr h
  obtain ⟨-, hw⟩ := m.access_of_stack_addr h v
  exact ⟨_, hw, Memory.read_write_same hwf ha hw, fun _ hba => Memory.read_write_other ha hba hw, rfl⟩

/-- Settles O19: the write rule of the stack region's cells, at every memory and at the reset memory. -/
theorem stackCellsAreIndependent : Obligations.StackCellsAreIndependent := by
  constructor
  · intro m a b v hwf ha hba
    obtain ⟨m', hw, hsame, hother, hdata⟩ := Memory.write_stack_addr hwf ha v.toNat
    rw [u32_toNat] at hsame
    exact ⟨⟨_, (m.access_of_stack_addr ha 0).1⟩, m', hw, hsame, hother b hba, hdata⟩
  · obtain ⟨m', hw, hsame, hother, -⟩ :=
      Memory.write_stack_addr State.reset_mem_wf (a := 0x100) (by decide) 0xAABBCCDD
    have hzero : ∀ b : Word, b ≠ 0x100 → ¬ MisalignedData b → m'.read b = .ok 0#32 := fun b hb hmis =>
      (hother b hb).trans (Memory.reset_read hmis)
    exact ⟨m', hw, hsame, hzero 0x101 (by decide) (by decide), hzero 0x102 (by decide) (by decide),
      hzero 0x104 (by decide) (by decide)⟩

/-! ### The instruction store (R23, R47) -/

/-- No instruction's meaning writes the instruction store. -/
theorem exec_imem {i : Instr} {s t : State} (h : exec i s = .next t) : t.imem = s.imem := by
  rcases exec_cases i s with ⟨-, hx⟩ | ⟨-, hx⟩ | ⟨rd, v, pc, -, hx⟩ | ⟨rs1, rs2, imm, m, -, -, hx⟩ | ⟨f, hx⟩ <;>
    rw [hx] at h <;> cases h
  · rfl
  · rfl
  · exact s.writeReg_imem rd v
  · rfl

/-- Settles O47: a step keeps its state, halts on an empty fetch, or is the fetched instruction's meaning. -/
theorem instructionStoreNeverChanges : Obligations.InstructionStoreNeverChanges := by
  intro s t h
  rcases step_cases s with ⟨-, he⟩ | ⟨-, -, he⟩ | ⟨-, -, he⟩ | ⟨w, -, -, he⟩ <;> rw [he] at h
  · cases h
    rfl
  · cases h
  · cases h
    rfl
  · exact exec_imem h

end Sys2Proof.Machine
end

section
/-! ## Placed words and their fields (R51 to R60, R74) -/

namespace Sys2Proof

open BitVec (extractLsb'_append_eq_of_le extractLsb'_append_eq_of_add_le extractLsb'_eq_self
  extractLsb'_append_extractLsb' extractLsb'_append_extractLsb'_eq_extractLsb')

/-! ### Fields of a placed word: a field lies in one part of the concatenation -/

/-- A field whose bit 0 is 0 is its other bits with a 0 set behind them. -/
theorem extractLsb'_one_append_zero {n : Nat} {v : BitVec (n + 1)} (h : v.getLsbD 0 = false) :
    v.extractLsb' 1 n ++ 0#1 = v := by
  have hbit : v.extractLsb' 0 1 = 0#1 := by
    apply BitVec.eq_of_getLsbD_eq
    intro i hi
    simpa [show i = 0 by omega] using h
  rw [← hbit, BitVec.extractLsb'_append_extractLsb']

/-- R52, R74. -/
@[simp] theorem fields_placeR (f7 : BitVec 7) (rs2 rs1 : Reg) (f3 : BitVec 3) (rd : Reg) (op : BitVec 7) :
    fieldOpcode (placeR f7 rs2 rs1 f3 rd op) = op ∧ fieldFunct3 (placeR f7 rs2 rs1 f3 rd op) = f3 ∧
      fieldFunct7 (placeR f7 rs2 rs1 f3 rd op) = f7 ∧ fieldRd (placeR f7 rs2 rs1 f3 rd op) = rd ∧
      fieldRs1 (placeR f7 rs2 rs1 f3 rd op) = rs1 ∧ fieldRs2 (placeR f7 rs2 rs1 f3 rd op) = rs2 := by
  simp (disch := decide) only [placeR, fieldOpcode, fieldFunct3, fieldFunct7, fieldRd, fieldRs1, fieldRs2,
    extractLsb'_append_eq_of_le, extractLsb'_append_eq_of_add_le, extractLsb'_eq_self, Nat.reduceSub, and_self]

/-- R53, R57. -/
@[simp] theorem fields_placeI (imm : BitVec 12) (rs1 : Reg) (f3 : BitVec 3) (rd : Reg) (op : BitVec 7) :
    fieldOpcode (placeI imm rs1 f3 rd op) = op ∧ fieldFunct3 (placeI imm rs1 f3 rd op) = f3 ∧
      fieldRd (placeI imm rs1 f3 rd op) = rd ∧ fieldRs1 (placeI imm rs1 f3 rd op) = rs1 ∧
      bitsImmI (placeI imm rs1 f3 rd op) = imm := by
  simp (disch := decide) only [placeI, fieldOpcode, fieldFunct3, fieldRd, fieldRs1, bitsImmI,
    extractLsb'_append_eq_of_le, extractLsb'_append_eq_of_add_le, extractLsb'_eq_self, Nat.reduceSub, and_self]

/-- R54, R58: the two parts of the immediate are joined again. -/
@[simp] theorem fields_placeS (imm : BitVec 12) (rs2 rs1 : Reg) (f3 : BitVec 3) (op : BitVec 7) :
    fieldOpcode (placeS imm rs2 rs1 f3 op) = op ∧ fieldFunct3 (placeS imm rs2 rs1 f3 op) = f3 ∧
      fieldRs1 (placeS imm rs2 rs1 f3 op) = rs1 ∧ fieldRs2 (placeS imm rs2 rs1 f3 op) = rs2 ∧
      bitsImmS (placeS imm rs2 rs1 f3 op) = imm := by
  simp (disch := decide) only [placeS, fieldOpcode, fieldFunct3, fieldRs1, fieldRs2, bitsImmS,
    extractLsb'_append_eq_of_le, extractLsb'_append_eq_of_add_le, extractLsb'_eq_self,
    extractLsb'_append_extractLsb', Nat.reduceSub, and_self]

/-- R55. -/
@[simp] theorem fields_placeB (imm : BitVec 13) (rs2 rs1 : Reg) (f3 : BitVec 3) (op : BitVec 7) :
    fieldOpcode (placeB imm rs2 rs1 f3 op) = op ∧ fieldFunct3 (placeB imm rs2 rs1 f3 op) = f3 ∧
      fieldRs1 (placeB imm rs2 rs1 f3 op) = rs1 ∧ fieldRs2 (placeB imm rs2 rs1 f3 op) = rs2 := by
  simp (disch := decide) only [placeB, fieldOpcode, fieldFunct3, fieldRs1, fieldRs2,
    extractLsb'_append_eq_of_le, extractLsb'_append_eq_of_add_le, extractLsb'_eq_self, Nat.reduceSub, and_self]

/-- R55, R59: the four parts of the immediate are joined again, bit 0 is taken as 0. -/
theorem bitsImmB_placeB {imm : BitVec 13} (h : imm.getLsbD 0 = false) (rs2 rs1 : Reg) (f3 : BitVec 3)
    (op : BitVec 7) : bitsImmB (placeB imm rs2 rs1 f3 op) = imm := by
  simp (disch := decide) only [placeB, bitsImmB, extractLsb'_append_eq_of_le, extractLsb'_append_eq_of_add_le,
    extractLsb'_eq_self, extractLsb'_append_extractLsb'_eq_extractLsb', Nat.reduceSub]
  exact extractLsb'_one_append_zero h

/-- R56. -/
@[simp] theorem fields_placeJ (imm : BitVec 21) (rd : Reg) (op : BitVec 7) :
    fieldOpcode (placeJ imm rd op) = op ∧ fieldRd (placeJ imm rd op) = rd := by
  simp (disch := decide) only [placeJ, fieldOpcode, fieldRd, extractLsb'_append_eq_of_le,
    extractLsb'_append_eq_of_add_le, extractLsb'_eq_self, Nat.reduceSub, and_self]

/-- R56, R60: the four parts of the immediate are joined again, bit 0 is taken as 0. -/
theorem bitsImmJ_placeJ {imm : BitVec 21} (h : imm.getLsbD 0 = false) (rd : Reg) (op : BitVec 7) :
    bitsImmJ (placeJ imm rd op) = imm := by
  simp (disch := decide) only [placeJ, bitsImmJ, extractLsb'_append_eq_of_le, extractLsb'_append_eq_of_add_le,
    extractLsb'_eq_self, extractLsb'_append_extractLsb'_eq_extractLsb', Nat.reduceSub]
  exact extractLsb'_one_append_zero h

/-- Settles O4: the five formats, each by the rules of its placed word. -/
theorem fieldRoundTrip : Obligations.FieldRoundTrip := by
  intro f7 rs2 rs1 f3 rd op i12 i13 i21
  obtain ⟨hop, hf3, hrs1, hrs2⟩ := fields_placeB i13 rs2 rs1 f3 op
  obtain ⟨hopJ, hrdJ⟩ := fields_placeJ i21 rd op
  exact ⟨fields_placeR f7 rs2 rs1 f3 rd op, fields_placeI i12 rs1 f3 rd op, fields_placeS i12 rs2 rs1 f3 op,
    ⟨hop, hf3, hrs1, hrs2, fun h => bitsImmB_placeB h rs2 rs1 f3 op⟩,
    ⟨hopJ, hrdJ, fun h => bitsImmJ_placeJ h rd op⟩⟩

/-! ### A word is its fields, placed: adjacent fields join -/

section

variable {w : Word} {f7 : BitVec 7} {f3 : BitVec 3} {op : BitVec 7}

theorem placeR_of_fields (hop : fieldOpcode w = op) (hf3 : fieldFunct3 w = f3) (hf7 : fieldFunct7 w = f7) :
    placeR f7 (fieldRs2 w) (fieldRs1 w) f3 (fieldRd w) op = w := by
  subst hop hf3 hf7
  simp only [placeR, fieldOpcode, fieldFunct3, fieldFunct7, fieldRd, fieldRs1, fieldRs2,
    extractLsb'_append_extractLsb'_eq_extractLsb', extractLsb'_eq_self]

theorem placeI_of_fields (hop : fieldOpcode w = op) (hf3 : fieldFunct3 w = f3) :
    placeI (bitsImmI w) (fieldRs1 w) f3 (fieldRd w) op = w := by
  subst hop hf3
  simp only [placeI, bitsImmI, fieldOpcode, fieldFunct3, fieldRd, fieldRs1,
    extractLsb'_append_extractLsb'_eq_extractLsb', extractLsb'_eq_self]

theorem placeS_of_fields (hop : fieldOpcode w = op) (hf3 : fieldFunct3 w = f3) :
    placeS (bitsImmS w) (fieldRs2 w) (fieldRs1 w) f3 op = w := by
  subst hop hf3
  simp (disch := decide) only [placeS, bitsImmS, fieldOpcode, fieldFunct3, fieldRs1, fieldRs2,
    extractLsb'_append_eq_of_le, extractLsb'_append_eq_of_add_le,
    extractLsb'_append_extractLsb'_eq_extractLsb', extractLsb'_eq_self, Nat.reduceSub]

theorem placeB_of_fields (hop : fieldOpcode w = op) (hf3 : fieldFunct3 w = f3) :
    placeB (bitsImmB w) (fieldRs2 w) (fieldRs1 w) f3 op = w := by
  subst hop hf3
  simp (disch := decide) only [placeB, bitsImmB, fieldOpcode, fieldFunct3, fieldRs1, fieldRs2,
    extractLsb'_append_eq_of_le, extractLsb'_append_eq_of_add_le,
    extractLsb'_append_extractLsb'_eq_extractLsb', extractLsb'_eq_self, Nat.reduceSub]

theorem placeJ_of_fields (hop : fieldOpcode w = op) : placeJ (bitsImmJ w) (fieldRd w) op = w := by
  subst hop
  simp (disch := decide) only [placeJ, bitsImmJ, fieldOpcode, fieldRd,
    extractLsb'_append_eq_of_le, extractLsb'_append_eq_of_add_le,
    extractLsb'_append_extractLsb'_eq_extractLsb', extractLsb'_eq_self, Nat.reduceSub]

end

end Sys2Proof
end

section
/-! ## The decoder and the encoder (R61 to R73) -/

namespace Sys2Proof

open Machine

/-! ### Bit 0 of the B and J immediates -/

theorem evenOffset_iff {n : Nat} (v : BitVec n) : evenOffset v = true ↔ v.getLsbD 0 = false := by
  simp only [evenOffset, Bool.not_eq_true']

theorem evenOffset_bitsImmB (w : Word) : evenOffset (bitsImmB w) = true := by
  rw [evenOffset_iff, bitsImmB, BitVec.getLsbD_append]
  rfl

theorem evenOffset_bitsImmJ (w : Word) : evenOffset (bitsImmJ w) = true := by
  rw [evenOffset_iff, bitsImmJ, BitVec.getLsbD_append]
  rfl

/-- R61: a `beq` stands for a word unless it would be the sentinel's. -/
theorem wellFormed_beq_iff {rs1 rs2 : Reg} {offset : BitVec 13} : (Instr.beq rs1 rs2 offset).wellFormed = true ↔
    evenOffset offset = true ∧ ¬ (rs1 = 0#5 ∧ rs2 = 0#5 ∧ offset = 0#13) := by
  simp only [Instr.wellFormed, Bool.and_eq_true, Bool.not_eq_true', ← Bool.not_eq_true, beq_iff_eq, and_assoc]

/-! ### What a word decodes to is well-formed and encodes the word (R73) -/

/-- `i` is an instruction of the word `w`. -/
def Instr.Encodes (i : Instr) (w : Word) : Prop := i.wellFormed = true ∧ encode i = w

section

variable {w : Word}

theorem decodeAlu_encodes (h : fieldOpcode w = opcodeAlu) : (decodeAlu w).Encodes w := by
  rw [decodeAlu]
  split_ifs
  case neg | neg | neg =>
    refine ⟨?_, rfl⟩
    simp_all [Instr.wellFormed, illegalWord, assemblerOnlyWord, decodedAluPairs, opcodeAlu, opcodeBranch]
  all_goals exact ⟨rfl, placeR_of_fields h ‹_› ‹_›⟩

theorem decodeAluImm_encodes (h : fieldOpcode w = opcodeAluImm) : (decodeAluImm w).Encodes w := by
  rw [decodeAluImm]
  split_ifs with hf3
  · exact ⟨rfl, placeI_of_fields h hf3⟩
  · refine ⟨?_, rfl⟩
    simp [Instr.wellFormed, illegalWord, assemblerOnlyWord, h, hf3, opcodeAluImm, opcodeAlu, opcodeBranch]

theorem decodeLoad_encodes (h : fieldOpcode w = opcodeLoad) : (decodeLoad w).Encodes w := by
  rw [decodeLoad]
  split_ifs with hf3
  · exact ⟨rfl, placeI_of_fields h hf3⟩
  · refine ⟨?_, rfl⟩
    simp [Instr.wellFormed, illegalWord, assemblerOnlyWord, h, hf3, opcodeLoad, opcodeAlu, opcodeBranch]

theorem decodeStore_encodes (h : fieldOpcode w = opcodeStore) : (decodeStore w).Encodes w := by
  rw [decodeStore]
  split_ifs with hf3
  · exact ⟨rfl, placeS_of_fields h hf3⟩
  · refine ⟨?_, rfl⟩
    simp [Instr.wellFormed, illegalWord, assemblerOnlyWord, h, hf3, opcodeStore, opcodeAlu, opcodeBranch]

theorem decodeBranch_encodes (h : fieldOpcode w = opcodeBranch) (hw : w ≠ Config.haltWord) :
    (decodeBranch w).Encodes w := by
  have heven := evenOffset_bitsImmB w
  rw [decodeBranch]
  split_ifs with hf3
  case neg =>
    refine ⟨?_, rfl⟩
    simp_all [Instr.wellFormed, illegalWord, assemblerOnlyWord, opcodeAlu, opcodeBranch]
  case pos =>
    have hplace := placeB_of_fields h hf3
    refine ⟨wellFormed_beq_iff.2 ⟨heven, ?_⟩, hplace⟩
    rintro ⟨hrs1, hrs2, himm⟩
    rw [hrs1, hrs2, himm] at hplace
    exact hw hplace.symm
  all_goals exact ⟨heven, placeB_of_fields h ‹_›⟩

/-- Every word decodes to an instruction of its own. -/
theorem decode_encodes (w : Word) : (decode w).Encodes w := by
  rcases opcode_cases w with h | h | h | h | h | ⟨h, hw⟩ | h | h | h
  · exact h ▸ ⟨rfl, rfl⟩
  · exact decode_opcodeAlu h ▸ decodeAlu_encodes h
  · exact decode_opcodeAluImm h ▸ decodeAluImm_encodes h
  · exact decode_opcodeLoad h ▸ decodeLoad_encodes h
  · exact decode_opcodeStore h ▸ decodeStore_encodes h
  · exact decode_opcodeBranch h hw ▸ decodeBranch_encodes h hw
  · exact decode_opcodeJal h ▸ ⟨evenOffset_bitsImmJ w, placeJ_of_fields h⟩
  · exact decode_opcodeJalr h ▸ ⟨rfl, placeI_of_fields h rfl⟩
  · rw [decode_opcodeOther h]
    refine ⟨?_, rfl⟩
    simp_all [Instr.wellFormed, illegalWord, assemblerOnlyWord, decodedOpcodes]

end

theorem encode_decode (w : Word) : encode (decode w) = w := (decode_encodes w).2

/-- Settles O11: by the opcode of the word and its second-level dispatch. -/
theorem encodeDecodeRoundTrip : Obligations.EncodeDecodeRoundTrip := decode_encodes

/-! ### The illegal classes (R70) -/

/-- The encoding of a well-formed instruction is in an illegal class exactly when it has no operation. -/
theorem illegalWord_encode {i : Instr} (hi : i.wellFormed = true) :
    illegalWord (encode i) = true ↔ i.op = .UNSUPPORTED := by
  cases i
  case unsupported word => simp_all [encode, Instr.wellFormed, Instr.op]
  case halt => decide
  all_goals
    simp [encode, illegalWord, Instr.op, decodedOpcodes, decodedAluPairs, opcodeAlu, opcodeAluImm, opcodeLoad,
      opcodeStore, opcodeBranch, opcodeJal, opcodeJalr]

theorem decode_op_eq_unsupported_iff (w : Word) : (decode w).op = .UNSUPPORTED ↔ illegalWord w = true := by
  obtain ⟨hwf, hw⟩ := decode_encodes w
  rw [← illegalWord_encode hwf, hw]

/-- R151, R153, R133: an instruction without an operation is fatal at its own address. -/
theorem exec_of_op_eq_unsupported {i : Instr} (h : i.op = .UNSUPPORTED) (s : State) :
    exec i s = .next (s.takeFatal .unsupportedInstruction) := by
  cases i
  case xor | blt | bge | bltu | unsupported => rfl
  all_goals cases h

/-- Settles O8: the classes by the encoding of what the word decodes to. -/
theorem illegalClassesAreComplete : Obligations.IllegalClassesAreComplete := by
  intro w
  refine ⟨decode_op_eq_unsupported_iff w, fun h s => ⟨s.takeFatal .unsupportedInstruction, ?_, rfl⟩⟩
  exact exec_of_op_eq_unsupported ((decode_op_eq_unsupported_iff w).2 h) s

/-! ### Decoding an encoding -/

/-- A branch word with `funct3 = 000` is not the sentinel when its instruction is a well-formed `beq`. -/
theorem encode_beq_ne_haltWord {rs1 rs2 : Reg} {offset : BitVec 13}
    (h : (Instr.beq rs1 rs2 offset).wellFormed = true) : encode (.beq rs1 rs2 offset) ≠ Config.haltWord := by
  intro hw
  obtain ⟨heven, hne⟩ := wellFormed_beq_iff.1 h
  obtain ⟨-, -, hrs1, hrs2⟩ := fields_placeB offset rs2 rs1 0b000#3 opcodeBranch
  have himm := bitsImmB_placeB ((evenOffset_iff offset).1 heven) rs2 rs1 0b000#3 opcodeBranch
  rw [← encode, hw] at hrs1 hrs2 himm
  exact hne ⟨hrs1.symm, hrs2.symm, himm.symm⟩

/-- A word of an illegal class that no named row covers decodes to itself, unsupported. -/
theorem decode_of_unsupported_wellFormed {w : Word} (h : (Instr.unsupported w).wellFormed = true) :
    decode w = .unsupported w := by
  obtain ⟨hill, honly⟩ := Bool.and_eq_true_iff.1 h
  have hop := (decode_op_eq_unsupported_iff w).2 hill
  have hw := encode_decode w
  generalize decode w = i at hop hw
  subst hw
  cases i
  case unsupported => rfl
  case xor | blt | bge | bltu =>
    simp [encode, assemblerOnlyWord] at honly
  all_goals cases hop

/-- Settles O10: by the instruction's format, its opcode's dispatch on the placed function fields. -/
theorem decodeEncodeRoundTrip : Obligations.DecodeEncodeRoundTrip := by
  intro i hi
  cases i with
  | halt => exact decode_haltWord
  | add | sub | or | srl | slt | and | xor =>
    rw [encode, decode_opcodeAlu (by simp)]
    simp [decodeAlu]
  | addi =>
    rw [encode, decode_opcodeAluImm (by simp)]
    simp [decodeAluImm]
  | lw =>
    rw [encode, decode_opcodeLoad (by simp)]
    simp [decodeLoad]
  | sw =>
    rw [encode, decode_opcodeStore (by simp)]
    simp [decodeStore]
  | jal rd offset =>
    rw [encode, decode_opcodeJal (by simp), bitsImmJ_placeJ ((evenOffset_iff offset).1 hi)]
    simp
  | jalr =>
    rw [encode, decode_opcodeJalr (by simp)]
    simp
  | beq rs1 rs2 offset =>
    obtain ⟨heven, -⟩ := wellFormed_beq_iff.1 hi
    rw [decode_opcodeBranch (by simp [encode]) (encode_beq_ne_haltWord hi)]
    simp [encode, decodeBranch, bitsImmB_placeB ((evenOffset_iff offset).1 heven)]
  | bne rs1 rs2 offset | blt rs1 rs2 offset | bge rs1 rs2 offset | bltu rs1 rs2 offset =>
    rw [encode, decode_opcodeBranch (by simp) (ne_haltWord_of_funct3 (by simp))]
    simp [decodeBranch, bitsImmB_placeB ((evenOffset_iff offset).1 hi)]
  | unsupported => exact decode_of_unsupported_wellFormed hi

end Sys2Proof
end

section
/-! ## Second-level dispatch and the halt sentinel (R61 to R68, R71) -/

namespace Sys2Proof

open Machine

theorem decode_eq_halt_iff (w : Word) : decode w = .halt ↔ w = Config.haltWord := by
  refine ⟨fun h => ?_, fun h => h ▸ decode_haltWord⟩
  rw [← encode_decode w, h, encode]

/-- R67: the operations of the branch opcode. -/
theorem decode_op_branch {w : Word} (h : fieldOpcode w = opcodeBranch) (hw : w ≠ Config.haltWord) :
    (decode w).op = if fieldFunct3 w = 0b000#3 then .BEQ
      else if fieldFunct3 w = 0b001#3 then .BNE else .UNSUPPORTED := by
  rw [decode_opcodeBranch h hw, decodeBranch]
  split_ifs <;> rfl

/-- Settles O5: the encoding of what a word decodes to is the word, and the branch opcode's operations. -/
theorem haltSentinelIsOneWord : Obligations.HaltSentinelIsOneWord :=
  fun w => ⟨decode_eq_halt_iff w, fun hw hop hf3 => (decode_op_branch hop hw).trans (if_pos hf3)⟩

/-- R63: the operations of the register-register opcode. -/
theorem decode_op_alu {w : Word} (h : fieldOpcode w = opcodeAlu) :
    ((decode w).op = .ADD ↔ fieldFunct3 w = 0b000#3 ∧ fieldFunct7 w = 0b0000000#7) ∧
      ((decode w).op = .SUB ↔ fieldFunct3 w = 0b000#3 ∧ fieldFunct7 w = 0b0100000#7) ∧
      ((decode w).op = .OR ↔ fieldFunct3 w = 0b110#3 ∧ fieldFunct7 w = 0b0000000#7) ∧
      ((decode w).op = .SRL ↔ fieldFunct3 w = 0b101#3 ∧ fieldFunct7 w = 0b0000000#7) ∧
      ((decode w).op = .SLT ↔ fieldFunct3 w = 0b010#3 ∧ fieldFunct7 w = 0b0000000#7) ∧
      ((decode w).op = .AND ↔ fieldFunct3 w = 0b111#3 ∧ fieldFunct7 w = 0b0000000#7) ∧
      (decode w).op ∈ [Op.ADD, .SUB, .OR, .SRL, .SLT, .AND, .UNSUPPORTED] := by
  rw [decode_opcodeAlu h, decodeAlu]
  split_ifs <;> simp_all [Instr.op]

/-- Settles O6: each opcode's dispatch by the branches of its own decoder. -/
theorem dispatchOnFunctionFields : Obligations.DispatchOnFunctionFields := by
  intro w
  refine ⟨decode_op_alu, fun h => ?_, fun h => ?_, fun h => ?_, decode_op_branch, fun h => ?_, fun h s => ?_⟩
  · rw [decode_opcodeAluImm h, decodeAluImm]
    split_ifs <;> rfl
  · rw [decode_opcodeLoad h, decodeLoad]
    split_ifs <;> rfl
  · rw [decode_opcodeStore h, decodeStore]
    split_ifs <;> rfl
  · rw [decode_opcodeJal h, Instr.op]
  · exact ⟨s.takeFatal .unsupportedInstruction, exec_of_op_eq_unsupported h s, rfl⟩

end Sys2Proof
end

section
/-! ## Immediates (R57 to R60, R62, R73) -/

namespace Sys2Proof

open Machine

/-- A field whose bit 0 is 0 reads as an even number, also signed. -/
theorem sext_even {n : Nat} {v : BitVec (n + 1)} (h : evenOffset v = true) : sext v % 2 = 0 := by
  have hv : v.toNat % 2 = 0 := Nat.mod_two_eq_zero_iff_testBit_zero.2 ((evenOffset_iff v).1 h)
  rw [sext_eq_ite_getLsbD, pow_succ]
  split_ifs <;> omega

/-- R57, R58: the range of a 12-bit immediate. -/
theorem sext_imm12 (v : BitVec 12) : sext v = v.toInt ∧ -2048 ≤ sext v ∧ sext v ≤ 2047 :=
  ⟨sext_eq_toInt v, sext_range v⟩

/-- R59: the range of a branch offset. -/
theorem sext_offset13 {v : BitVec 13} (h : evenOffset v = true) :
    sext v = v.toInt ∧ -4096 ≤ sext v ∧ sext v ≤ 4094 ∧ sext v % 2 = 0 := by
  have heven := sext_even h
  obtain ⟨hlo, hhi⟩ : -4096 ≤ sext v ∧ sext v ≤ 4095 := sext_range v
  exact ⟨sext_eq_toInt v, hlo, by omega, heven⟩

/-- R60: the range of a jump offset. -/
theorem sext_offset21 {v : BitVec 21} (h : evenOffset v = true) :
    sext v = v.toInt ∧ -1048576 ≤ sext v ∧ sext v ≤ 1048574 ∧ sext v % 2 = 0 := by
  have heven := sext_even h
  obtain ⟨hlo, hhi⟩ : -1048576 ≤ sext v ∧ sext v ≤ 1048575 := sext_range v
  exact ⟨sext_eq_toInt v, hlo, by omega, heven⟩

/-- R62, R73: the immediate of the format the opcode selects. -/
theorem immOf_of_opcode {w : Word} {op : BitVec 7} (h : fieldOpcode w = op) : immOf w =
    match formatOf op with
    | some .I => sext (bitsImmI w)
    | some .S => sext (bitsImmS w)
    | some .B => sext (bitsImmB w)
    | some .J => sext (bitsImmJ w)
    | some .R => 0
    | none => 0 := by
  subst h
  rfl

/-- Settles O2: the immediate by the operation or by the opcode, then its range by its width. -/
theorem immediateOfEachFormat : Obligations.ImmediateOfEachFormat := by
  intro w d opcode
  have hop : d.imm = _ := decodeRecord_imm w
  refine ⟨fun h => ?_, fun h => ?_, fun h => ?_, fun h => ?_, fun h => immOf_of_opcode h⟩
  · have himm : d.imm = sext (bitsImmI w) := by
      rcases h with (h | h | h) | h | h | h
      iterate 3 exact hop.trans (by rw [h])
      iterate 3 exact immOf_of_opcode h
    exact himm ▸ sext_imm12 (bitsImmI w)
  · have himm : d.imm = sext (bitsImmS w) := by
      rcases h with h | h
      · exact hop.trans (by rw [h])
      · exact immOf_of_opcode h
    exact himm ▸ sext_imm12 (bitsImmS w)
  · have himm : d.imm = sext (bitsImmB w) := by
      rcases h with (h | h) | h
      iterate 2 exact hop.trans (by rw [h])
      exact immOf_of_opcode h
    exact himm ▸ sext_offset13 (evenOffset_bitsImmB w)
  · have himm : d.imm = sext (bitsImmJ w) := by
      rcases h with h | h
      · exact hop.trans (by rw [h])
      · exact immOf_of_opcode h
    exact himm ▸ sext_offset21 (evenOffset_bitsImmJ w)

/-- A number in the range of a field's signed reading is what its field reads as. -/
theorem sext_ofInt {n : Nat} {v : Int} (hlo : -(2 ^ n) ≤ v) (hhi : v < 2 ^ n) :
    sext (BitVec.ofInt (n + 1) v) = v := by
  rw [sext_eq_toInt]
  exact BitVec.toInt_ofInt_eq_self n.succ_pos hlo hhi

/-- The field of an even number has bit 0 clear. -/
theorem getLsbD_zero_ofInt {n : Nat} {v : Int} (h : v % 2 = 0) : (BitVec.ofInt (n + 1) v).getLsbD 0 = false := by
  have hmod : v % (2 ^ (n + 1) : Nat) % 2 = 0 :=
    (Int.emod_emod_of_dvd v (by exact_mod_cast dvd_pow_self 2 n.succ_ne_zero)).trans h
  apply Nat.mod_two_eq_zero_iff_testBit_zero.1
  rw [BitVec.toNat_ofInt]
  omega

/-- Settles O3: the placed field is read back, and reads as the number. -/
theorem immediateRoundTrip : Obligations.ImmediateRoundTrip := by
  refine ⟨fun v rs1 rd f3 op hlo hhi => ?_, fun v rs1 rs2 f3 op hlo hhi => ?_,
    fun v rs1 rs2 f3 op hlo hhi heven => ?_, fun v rd op hlo hhi heven => ?_⟩
  · obtain ⟨-, -, -, -, himm⟩ := fields_placeI (BitVec.ofInt 12 v) rs1 f3 rd op
    rw [himm, sext_ofInt hlo (Int.lt_add_one_of_le hhi)]
  · obtain ⟨-, -, -, -, himm⟩ := fields_placeS (BitVec.ofInt 12 v) rs2 rs1 f3 op
    rw [himm, sext_ofInt hlo (Int.lt_add_one_of_le hhi)]
  · rw [bitsImmB_placeB (getLsbD_zero_ofInt heven)]
    exact sext_ofInt hlo (hhi.trans_lt (by decide))
  · rw [bitsImmJ_placeJ (getLsbD_zero_ofInt heven)]
    exact sext_ofInt hlo (hhi.trans_lt (by decide))

end Sys2Proof
end

section
/-! ## The core as its blocks (R5, R193) -/

namespace Sys2Proof

open Machine

/-! ### The decoded record and the instruction -/

/-- The record names the instruction's operation and holds its operands in the record's fields. -/
def Decoded.Names (d : Decoded) (i : Instr) : Prop :=
  d.op = i.op ∧
    match i with
    | .add rd rs1 rs2 | .sub rd rs1 rs2 | .or rd rs1 rs2 | .srl rd rs1 rs2 | .slt rd rs1 rs2 | .and rd rs1 rs2 =>
      d.rd = rd ∧ d.rs1 = rs1 ∧ d.rs2 = rs2
    | .addi rd rs1 imm | .lw rd rs1 imm | .jalr _ rd rs1 imm => d.rd = rd ∧ d.rs1 = rs1 ∧ d.imm = sext imm
    | .sw rs1 rs2 imm => d.rs1 = rs1 ∧ d.rs2 = rs2 ∧ d.imm = sext imm
    | .beq rs1 rs2 offset | .bne rs1 rs2 offset => d.rs1 = rs1 ∧ d.rs2 = rs2 ∧ d.imm = sext offset
    | .jal rd offset => d.rd = rd ∧ d.imm = sext offset
    | .halt | .xor .. | .blt .. | .bge .. | .bltu .. | .unsupported _ => True

/-- R73: the record of a word names the instruction the word decodes to. -/
theorem decodeRecord_names (w : Word) : (decodeRecord w).Names (decode w) := by
  refine ⟨rfl, ?_⟩
  rcases opcode_cases w with h | h | h | h | h | ⟨h, hw⟩ | h | h | h
  · rw [h, decode_haltWord]
    trivial
  · rw [decode_opcodeAlu h, decodeAlu]
    split_ifs <;> trivial
  · rw [decode_opcodeAluImm h, decodeAluImm]
    split_ifs
    · exact ⟨rfl, rfl, immOf_of_opcode h⟩
    · trivial
  · rw [decode_opcodeLoad h, decodeLoad]
    split_ifs
    · exact ⟨rfl, rfl, immOf_of_opcode h⟩
    · trivial
  · rw [decode_opcodeStore h, decodeStore]
    split_ifs
    · exact ⟨rfl, rfl, immOf_of_opcode h⟩
    · trivial
  · rw [decode_opcodeBranch h hw, decodeBranch]
    split_ifs
    · exact ⟨rfl, rfl, immOf_of_opcode h⟩
    · exact ⟨rfl, rfl, immOf_of_opcode h⟩
    all_goals trivial
  · rw [decode_opcodeJal h]
    exact ⟨rfl, immOf_of_opcode h⟩
  · rw [decode_opcodeJalr h]
    exact ⟨rfl, rfl, immOf_of_opcode h⟩
  · rw [decode_opcodeOther h]
    trivial

namespace Machine

/-! ### The blocks' results, narrowed, are the meanings' -/

/-- R14: only the narrowed result counts. -/
theorem writeBack_congr {rd : Reg} {v v' : Int} {s : State} (h : u32 v = u32 v') :
    writeBack rd v s = writeBack rd v' s := by
  rw [writeBack, writeBack, State.writeReg, State.writeReg, h]

/-- R104: the shift by the low five bits, masked. -/
theorem ushiftRight_and_31 (a b : Word) :
    ((a >>> (b &&& 31#32)).toNat : Int) = (a.toNat : Int) / 2 ^ shiftAmount b := by
  have hmask : (b &&& 31#32).toNat = b.toNat % 2 ^ 5 := by
    rw [BitVec.toNat_and]
    exact Nat.and_two_pow_sub_one_eq_mod b.toNat 5
  have hshift : shiftAmount b = b.toNat % 2 ^ 5 := by
    rw [shiftAmount, BitVec.extractLsb'_toNat, Nat.shiftRight_zero]
  rw [BitVec.ushiftRight_eq', BitVec.toNat_ushiftRight, Nat.shiftRight_eq_div_pow, hmask, hshift]
  push_cast
  rfl

/-- R43: the effective address is the word sum of the base and the narrowed displacement. -/
theorem State.effectiveAddress_eq_add (s : State) (rs1 : Reg) (imm : BitVec 12) :
    s.effectiveAddress rs1 imm = s.readReg rs1 + u32 (sext imm) := by
  rw [State.effectiveAddress, State.regVal, u32_add, u32_toNat]

/-- R130: the condition of `beq`. -/
theorem equalRegs_iff {a b : Word} : equalRegs a b = true ↔ a = b := beq_iff_eq

/-- R131: the condition of `bne`. -/
theorem not_equalRegs_iff {a b : Word} : (!equalRegs a b) = true ↔ a ≠ b := bne_iff_ne

theorem next_commit_congr {s : State} {t t' : Int} (h : t = t') :
    (.next (s.commit t) : Host.Outcome State Fault Refusal) = .next (s.commit t') := by
  rw [h]

/-- The execute unit, memory access, write port and commit of a record are the meaning of the instruction it
names, if it has an operation of the execute unit. -/
theorem applyExec_execUnit {d : Decoded} {i : Instr} (hd : d.Names i) (hhalt : i.op ≠ .HALT)
    (huns : i.op ≠ .UNSUPPORTED) (s : State) :
    applyExec (execUnit d (s.readReg d.rs1) (s.readReg d.rs2) s.pc) s = exec i s := by
  obtain ⟨hop, hfields⟩ := hd
  rw [execUnit.eq_def, hop]
  cases i with
  | halt => exact absurd rfl hhalt
  | xor | blt | bge | bltu | unsupported => exact absurd rfl huns
  | add =>
    obtain ⟨rfl, rfl, rfl⟩ := hfields
    refine writeBack_congr ?_
    rw [u32_toNat, u32_add, State.regVal, State.regVal, u32_toNat, u32_toNat]
  | sub =>
    obtain ⟨rfl, rfl, rfl⟩ := hfields
    refine writeBack_congr ?_
    rw [u32_toNat, u32_sub, State.regVal, State.regVal, u32_toNat, u32_toNat]
  | or | and | slt =>
    obtain ⟨rfl, rfl, rfl⟩ := hfields
    rfl
  | srl =>
    obtain ⟨rfl, rfl, rfl⟩ := hfields
    exact writeBack_congr (congrArg u32 (ushiftRight_and_31 _ _))
  | addi =>
    obtain ⟨rfl, rfl, himm⟩ := hfields
    refine writeBack_congr ?_
    rw [u32_toNat, himm, u32_add, State.regVal, u32_toNat]
  | lw rd rs1 imm =>
    obtain ⟨rfl, rfl, himm⟩ := hfields
    simp only [applyExec, exec, execLw, himm, State.effectiveAddress_eq_add]
    rfl
  | sw =>
    obtain ⟨rfl, rfl, himm⟩ := hfields
    simp only [applyExec, exec, execSw, himm, State.effectiveAddress_eq_add]
    rfl
  | beq =>
    obtain ⟨rfl, rfl, himm⟩ := hfields
    exact next_commit_congr (if_congr equalRegs_iff.symm (congrArg _ himm) rfl)
  | bne =>
    obtain ⟨rfl, rfl, himm⟩ := hfields
    exact next_commit_congr (if_congr not_equalRegs_iff.symm (congrArg _ himm) rfl)
  | jal =>
    obtain ⟨rfl, himm⟩ := hfields
    simp only [applyExec, exec, execJal, himm]
    rfl
  | jalr =>
    obtain ⟨rfl, rfl, himm⟩ := hfields
    simp only [applyExec, exec, execJalr, State.indirectTarget, himm, u32_add, State.regVal, u32_toNat]
    rfl

/-- Only the sentinel row has the operation `HALT`. -/
theorem op_eq_halt_iff {i : Instr} : i.op = .HALT ↔ i = .halt := by
  cases i <;> simp [Instr.op]

/-- R193: the fetched word's part of the step. -/
theorem blockWord_eq_exec_decode (w : Word) (s : State) : blockWord w s = exec (decode w) s := by
  by_cases hhalt : w = Config.haltWord
  · rw [blockWord, if_pos hhalt, hhalt, decode_haltWord]
    rfl
  · rw [blockWord, if_neg hhalt]
    by_cases huns : (decode w).op = .UNSUPPORTED
    · exact (if_pos huns).trans (exec_of_op_eq_unsupported huns s).symm
    · have hop : (decode w).op ≠ .HALT := fun h => hhalt ((decode_eq_halt_iff w).1 (op_eq_halt_iff.1 h))
      exact (if_neg huns).trans (applyExec_execUnit (decodeRecord_names w) hop huns s)

/-- R167, R193: the pseudocode's tests are those of the fetch. -/
theorem blockStep_eq_fetch (s : State) : blockStep s =
    match s.fetch with
    | .misaligned => .fault .misalignedPc
    | .outOfRange => .next (s.halt .fetchOutOfRange)
    | .word w => blockWord w s := by
  rw [blockStep, State.fetch]
  by_cases halign : s.pc.toNat % Config.instrSlot = 0
  · rw [if_neg (not_not.2 halign), if_pos halign]
    cases s.imem[s.pc.toNat / Config.instrSlot]? <;> rfl
  · rw [if_pos halign, if_neg halign]

/-- Settles O51: by the step's cases, which are the fetch's, and the fetched word's part. -/
theorem blocksRefineStep : Obligations.BlocksRefineStep := by
  intro s hs
  rw [blockStep_eq_fetch]
  rcases step_cases s with ⟨hne, -⟩ | ⟨-, hf, he⟩ | ⟨-, hf, he⟩ | ⟨w, -, hf, he⟩
  · exact absurd hs hne
  · rw [hf, he]
  · rw [hf, he]
  · rw [hf, he]
    exact blockWord_eq_exec_decode w s

end Machine

end Sys2Proof
end

section
/-! ## Lines and the loader (R91, R98) -/

namespace Sys2Proof.Machine

/-- The lines of a list of words load as the words, whatever number the first line has. -/
theorem loadFrom_map_wordLine (ws : List Word) (n : Nat) : loadFrom n (ws.map wordLine) = .ok ws := by
  induction ws generalizing n with
  | nil => rfl
  | cons w ws ih =>
    rw [List.map_cons, loadFrom, wordLine_not_blank, if_neg Bool.false_ne_true, if_pos (wordLine_length w),
      wordOfLine_wordLine, ih]

/-- Settles O55: each line's shape, and the loader along the list. -/
theorem linesLoadAsWords : Obligations.LinesLoadAsWords := by
  intro ws
  refine ⟨fun line hline => ?_, loadFrom_map_wordLine ws 1⟩
  obtain ⟨w, -, rfl⟩ := List.mem_map.1 hline
  exact ⟨wordLine_length w, wordLine_chars w⟩

end Sys2Proof.Machine
end

section
/-! ## The assembler: pass 1 and the policy for failures (R81, R90 to R92, R97) -/

namespace Sys2Proof.Machine

/-- Settles O57: the fixed text and the fixed fields evaluate. -/
theorem workedExampleAssembles : Obligations.WorkedExampleAssembles := ⟨by decide, by decide⟩

/-! ### Pass 1, line by line (R81) -/

/-- The label record of a line at running address `addr`. -/
def lineRecord (addr : Nat) (line : Text) : Labels := ((lineLabel line).map (·, addr)).toList

/-- The slot of line number `n` at running address `addr`. -/
def lineSlot (n addr : Nat) (line : Text) : List Slot :=
  if holdsInstruction line then [{ line := n, addr := addr, text := (splitLabel line).2 }] else []

/-- The running address after a line. -/
def addrAfter (addr : Nat) (line : Text) : Nat := if holdsInstruction line then addr + 4 else addr

theorem pass1_cons (n addr : Nat) (line : Text) (lines : List Text) :
    pass1 n addr (line :: lines) =
      (lineRecord addr line ++ (pass1 (n + 1) (addrAfter addr line) lines).1,
        lineSlot n addr line ++ (pass1 (n + 1) (addrAfter addr line) lines).2) := by
  rw [pass1, lineRecord, lineSlot, addrAfter, lineLabel, holdsInstruction]
  by_cases hskip : isSkipped line = true
  · simp [hskip]
  · by_cases hblank : isBlank (splitLabel line).2 = true <;> cases hlabel : (splitLabel line).1 <;>
      simp [hskip, hblank, hlabel]

theorem mem_lineRecord {addr a : Nat} {line name : Text} :
    (name, a) ∈ lineRecord addr line ↔ lineLabel line = some name ∧ a = addr := by
  simp [lineRecord, eq_comm]

/-- The addresses of the slots rise by 4 from the running address on, one for each instruction text. -/
theorem pass1_addrs (n addr : Nat) (source : List Text) :
    (pass1 n addr source).2.map Slot.addr = List.range' addr (source.countP holdsInstruction) 4 := by
  induction source generalizing n addr with
  | nil => rfl
  | cons line lines ih =>
    rw [pass1_cons, List.map_append, ih, List.countP_cons, lineSlot, addrAfter]
    split_ifs with h
    · rw [List.range'_succ]
      rfl
    · rfl

/-- A label is recorded with the running address of its line. -/
theorem mem_pass1_labels {name : Text} {a : Nat} (n addr : Nat) (source : List Text) :
    (name, a) ∈ (pass1 n addr source).1 ↔
      ∃ before line after, source = before ++ line :: after ∧ lineLabel line = some name ∧
        a = addr + 4 * before.countP holdsInstruction := by
  induction source generalizing n addr with
  | nil => simp [pass1]
  | cons first lines ih =>
    have hstep (before : List Text) : addrAfter addr first + 4 * before.countP holdsInstruction =
        addr + 4 * (first :: before).countP holdsInstruction := by
      rw [addrAfter, List.countP_cons]
      split_ifs <;> omega
    rw [pass1_cons, List.mem_append, mem_lineRecord, ih]
    constructor
    · rintro (⟨hlabel, rfl⟩ | ⟨before, line, after, rfl, hlabel, rfl⟩)
      · exact ⟨[], first, lines, rfl, hlabel, rfl⟩
      · exact ⟨first :: before, line, after, rfl, hlabel, hstep before⟩
    · rintro ⟨before, line, after, hsource, hlabel, ha⟩
      cases before with
      | nil =>
        obtain ⟨rfl, rfl⟩ := List.cons.inj hsource
        exact .inl ⟨hlabel, ha⟩
      | cons _ before =>
        obtain ⟨rfl, rfl⟩ := List.cons.inj hsource
        exact .inr ⟨before, line, after, rfl, hlabel, ha.trans (hstep before).symm⟩

/-- Settles O58: the slots by their list of addresses, the labels by their lines. -/
theorem passOneAddresses : Obligations.PassOneAddresses := by
  intro source p
  have haddrs : p.2.map Slot.addr = List.range' 0 (source.countP holdsInstruction) 4 := pass1_addrs 1 0 source
  refine ⟨?_, fun k slot hslot => ?_, fun name addr => ?_⟩
  · simpa using congrArg List.length haddrs
  · have hk : (p.2.map Slot.addr)[k]? = some slot.addr := by rw [List.getElem?_map, hslot, Option.map_some]
    rw [haddrs] at hk
    obtain ⟨hlt, hget⟩ := List.getElem?_eq_some_iff.1 hk
    simpa using hget.symm
  · simpa using mem_pass1_labels 1 0 source

/-! ### Line numbers of the slots (R90) -/

/-- A slot's line number counts the lines up to its own, whose instruction text it holds. -/
theorem pass1_slot_line {n addr : Nat} {source : List Text} {slot : Slot} (h : slot ∈ (pass1 n addr source).2) :
    n ≤ slot.line ∧ ∃ line, source[slot.line - n]? = some line ∧ holdsInstruction line = true ∧
      slot.text = (splitLabel line).2 := by
  induction source generalizing n addr with
  | nil => cases h
  | cons first lines ih =>
    rw [pass1_cons, List.mem_append, lineSlot] at h
    rcases h with h | h
    · split_ifs at h with hfirst
      · rw [List.mem_singleton] at h
        subst h
        exact ⟨le_rfl, first, by simp, hfirst, rfl⟩
      · cases h
    · obtain ⟨hle, line, hline, hholds⟩ := ih h
      refine ⟨by omega, line, ?_, hholds⟩
      rw [show slot.line - n = slot.line - (n + 1) + 1 by omega, List.getElem?_cons_succ, hline]

theorem pass1_lines_rise (n addr : Nat) (source : List Text) :
    (pass1 n addr source).2.Pairwise fun a b => a.line < b.line := by
  induction source generalizing n addr with
  | nil => exact List.Pairwise.nil
  | cons first lines ih =>
    rw [pass1_cons, lineSlot]
    split_ifs
    · exact List.pairwise_cons.2 ⟨fun _ h => (pass1_slot_line h).1, ih _ _⟩
    · exact ih _ _

/-! ### Words and errors (R90 to R92) -/

/-- Where every text has its word, every policy gives each text's word. -/
theorem map_some_emitWords {results : List (Nat × Option InstrWord)} (h : ∀ r ∈ results, r.2.isSome = true)
    (policy : AsmFailPolicy) : (emitWords policy results).map some = results.map fun r => r.2 := by
  have hfilter : (results.filterMap fun r => r.2).map some = results.map fun r => r.2 := by
    rw [List.map_filterMap_some_eq_filter_map_isSome]
    exact List.filter_eq_self.2 (List.forall_mem_map.2 h)
  cases policy with
  | omitLine => exact hfilter
  | abort => rwa [emitWords, if_pos (List.all_eq_true.2 h)]
  | placeholder w =>
    rw [emitWords, List.map_map]
    refine List.map_congr_left fun r hr => ?_
    obtain ⟨v, hv⟩ := Option.isSome_iff_exists.1 (h r hr)
    simp [hv]

/-- The errors are the lines of the slots whose text has no word. -/
theorem assemble_errors (policy : AsmFailPolicy) (source : List Text) :
    (assemble policy source).errors = ((pass1 1 0 source).2.filter fun slot =>
      (asmText (pass1 1 0 source).1 slot.addr slot.text).isNone).map Slot.line := by
  simp only [assemble, encodeSlots, List.filterMap_map, ← List.filterMap_eq_filter, List.map_filterMap]
  congr 1
  funext slot
  cases h : asmText (pass1 1 0 source).1 slot.addr slot.text <;> simp [Option.guard, h]

/-- Settles O60: the words and errors slot by slot, the slots' lines by pass 1. -/
theorem failuresAreReportedAndOmitted : Obligations.FailuresAreReportedAndOmitted := by
  intro source p r
  have herrors := assemble_errors .omitLine source
  refine ⟨List.filterMap_map, herrors, pass1_lines_rise 1 0 source, fun slot => pass1_slot_line,
    fun h policy => ?_⟩
  rw [h, eq_comm, List.map_eq_nil_iff, List.filter_eq_nil_iff] at herrors
  have hsome : ∀ result ∈ encodeSlots source, result.2.isSome = true := by
    intro result hresult
    obtain ⟨slot, hslot, rfl⟩ := List.mem_map.1 hresult
    simpa [Option.isSome_iff_ne_none] using herrors slot hslot
  rw [assemble, map_some_emitWords hsome, encodeSlots, List.map_map]
  rfl

end Sys2Proof.Machine
end

section
/-! ## Branches to labels (R88, R130 to R132) -/

namespace Sys2Proof

open Machine

/-! ### The field of a distance -/

/-- R88: an even distance in a branch's range has a field. -/
theorem offsetField_13_of_even {d : Int} (heven : d % 2 = 0) (hlo : -4096 ≤ d) (hhi : d ≤ 4094) :
    offsetField 13 d = some (BitVec.ofInt 13 d) :=
  if_pos ⟨heven, hlo, hhi.trans_lt (by decide)⟩

/-- R59, R73: the record of a branch word, whatever its `funct3`, holds its field's signed reading. -/
theorem decodeRecord_imm_placeB {offset : BitVec 13} (h : evenOffset offset = true) (rs2 rs1 : Reg)
    (f3 : BitVec 3) : (decodeRecord (placeB offset rs2 rs1 f3 opcodeBranch)).imm = sext offset := by
  obtain ⟨hop, -⟩ := fields_placeB offset rs2 rs1 f3 opcodeBranch
  exact (immOf_of_opcode hop).trans (congrArg sext (bitsImmB_placeB ((evenOffset_iff offset).1 h) rs2 rs1 f3 _))

namespace Machine

/-! ### The taken branch -/

/-- R130: `beq` on equal values. -/
theorem exec_beq_of_eq {rs1 rs2 : Reg} {s : State} (h : s.readReg rs1 = s.readReg rs2) (offset : BitVec 13) :
    exec (.beq rs1 rs2 offset) s = .next (s.commit (s.relativeTarget offset)) :=
  next_commit_congr (if_pos (equalRegs_iff.2 h))

/-- R131: `bne` on unequal values. -/
theorem exec_bne_of_ne {rs1 rs2 : Reg} {s : State} (h : s.readReg rs1 ≠ s.readReg rs2) (offset : BitVec 13) :
    exec (.bne rs1 rs2 offset) s = .next (s.commit (s.relativeTarget offset)) :=
  next_commit_congr (if_pos (not_equalRegs_iff.2 h))

/-- R132: an offset that is the distance to a label leads exactly to the label. -/
theorem State.commit_relativeTarget_pc {n label : Nat} {s : State} {offset : BitVec n} (hlabel : label < 2 ^ 32)
    (h : sext offset = (label : Int) - s.pc.toNat) :
    (s.commit (s.relativeTarget offset)).pc.toNat = label := by
  rw [State.commit_pc, State.relativeTarget, h, add_sub_cancel, u32_natCast]
  exact Nat.mod_eq_of_lt hlabel

end Machine

/-- Settles O33: the field reads as the distance, the placed words decode to their branches, and a taken
branch goes that distance. -/
theorem branchDisplacement : Obligations.BranchDisplacement := by
  intro s label rs1 rs2 hlabel heven hlo hhi
  have hfield := offsetField_13_of_even heven hlo hhi
  have hsext := sext_ofInt (n := 12) hlo (hhi.trans_lt (by decide))
  have hbit := (evenOffset_iff _).2 (getLsbD_zero_ofInt (n := 12) heven)
  generalize BitVec.ofInt 13 ((label : Int) - s.pc.toNat) = field at hfield hsext hbit
  refine ⟨field, hfield, (decodeRecord_imm_placeB hbit rs2 rs1 _).trans hsext,
    (decodeRecord_imm_placeB hbit rs2 rs1 _).trans hsext, fun heq hne => ?_, fun hneq => ?_⟩
  · have hwf : (Instr.beq rs1 rs2 field).wellFormed = true := by
      refine wellFormed_beq_iff.2 ⟨hbit, fun ⟨hrs1, hrs2, hzero⟩ => hne ⟨hrs1, hrs2, ?_⟩⟩
      have hdist : (label : Int) - s.pc.toNat = 0 := by
        rw [← hsext, hzero]
        decide
      omega
    refine ⟨_, ?_, State.commit_relativeTarget_pc hlabel hsext⟩
    exact (congrArg (exec · s) (decodeEncodeRoundTrip _ hwf)).trans (exec_beq_of_eq heq field)
  · refine ⟨_, ?_, State.commit_relativeTarget_pc hlabel hsext⟩
    exact (congrArg (exec · s) (decodeEncodeRoundTrip (.bne rs1 rs2 field) hbit)).trans
      (exec_bne_of_ne hneq field)

end Sys2Proof
end

section
/-! ## Halt and unsupported words (R150, R151) -/

namespace Sys2Proof.Machine

/-! ### The fetched word's step (R193) -/

/-- R18, R23: a fetch at an aligned `pc` inside the store. -/
theorem State.fetch_of_imem {s : State} {w : Word} (halign : s.pc.toNat % 4 = 0)
    (hw : s.imem[s.pc.toNat / 4]? = some w) : s.fetch = .word w := by
  rw [State.fetch, if_pos halign, Config.instrSlot, hw]

/-- R23, R32: the first fetch after reset gives the program's first word. -/
theorem State.boot_fetch_cons (w : Word) (ws : List Word) : (State.boot (w :: ws)).fetch = .word w := by
  simp [State.fetch, State.boot, State.reset, Config.resetPc]

/-- A running state with a word fetched takes that word's step. -/
theorem step_of_fetch {s : State} {w : Word} (hs : s.status = .running) (hf : s.fetch = .word w) :
    step s = exec (decode w) s := by
  rw [step, cycle, hs, runningStep, hf]

/-! ### The halt sentinel -/

/-- R150: a running state that fetches the sentinel halts, at any address. -/
theorem step_of_fetch_haltWord {s : State} (hs : s.status = .running) (hf : s.fetch = .word Config.haltWord) :
    step s = .next s.afterHalt := by
  rw [step_of_fetch hs hf, decode_haltWord]
  rfl

/-- Settles O36: the halt step, and the halt law as that step from the boot of the program. -/
theorem haltSentinel : Obligations.HaltSentinel := by
  refine ⟨fun s => rfl, fun s hs halign hw => ?_, fun rest => ?_⟩
  · exact step_of_fetch_haltWord hs (State.fetch_of_imem halign hw)
  · exact ⟨_, step_of_fetch_haltWord rfl (State.boot_fetch_cons _ rest), rfl, rfl, rfl, fun r => rfl⟩

/-! ### The fatal words -/

/-- An instruction with an operation leaves a running state running or halted at the sentinel. -/
theorem exec_status_of_op_ne_unsupported {i : Instr} (hop : i.op ≠ .UNSUPPORTED) {s t : State}
    (hs : s.status = .running) (h : exec i s = .next t) :
    t.status = .running ∨ t.status = .halted .sentinel := by
  rcases exec_cases i s with ⟨-, hx⟩ | ⟨huns, -⟩ | ⟨rd, v, pc, -, hx⟩ | ⟨rs1, rs2, imm, m, -, -, hx⟩ | ⟨f, hx⟩
  case inr.inl => exact absurd huns hop
  all_goals rw [hx] at h; cases h
  · exact .inr rfl
  · exact .inl ((s.writeReg_status rd v).trans hs)
  · exact .inl hs

/-- Settles O38: a fetched word is illegal exactly when what it decodes to has no operation. -/
theorem fatalDependsOnTheWordAlone : Obligations.FatalDependsOnTheWordAlone := by
  intro s w hs halign hw
  rw [step_of_fetch hs (State.fetch_of_imem halign hw), ← decode_op_eq_unsupported_iff, ← Bool.not_eq_true,
    ← decode_op_eq_unsupported_iff]
  refine ⟨fun huns => exec_of_op_eq_unsupported huns s, fun hop t ht kind addr hfatal => ?_⟩
  rcases exec_status_of_op_ne_unsupported hop hs ht with h | h <;> cases h.symm.trans hfatal

end Sys2Proof.Machine
end

section
/-! ## The step's tests and the invariant (R12, R17, R18, R23, R30, R194) -/

namespace Sys2Proof.Machine

/-! ### The fetch, by its result (R18, R23) -/

/-- R18: a fetch is misaligned exactly where `pc` is no multiple of 4. -/
theorem State.fetch_eq_misaligned_iff (s : State) : s.fetch = .misaligned ↔ s.pc.toNat % 4 ≠ 0 := by
  rw [State.fetch]
  by_cases halign : s.pc.toNat % 4 = 0
  · rw [if_pos halign]
    cases s.imem[s.pc.toNat / Config.instrSlot]? <;> simp [halign]
  · rw [if_neg halign]
    exact iff_of_true rfl halign

/-- R23: a word is fetched exactly where `pc` is aligned and the store holds one. -/
theorem State.fetch_eq_word_iff (s : State) (w : InstrWord) :
    s.fetch = .word w ↔ s.pc.toNat % 4 = 0 ∧ s.imem[s.pc.toNat / 4]? = some w := by
  refine ⟨fun h => ?_, fun h => State.fetch_of_imem h.1 h.2⟩
  have halign : s.pc.toNat % 4 = 0 := by
    by_contra hne
    cases h.symm.trans (s.fetch_eq_misaligned_iff.2 hne)
  rw [State.fetch, if_pos halign] at h
  split at h <;> cases h
  exact ⟨halign, ‹_›⟩

/-- R23: an aligned fetch is out of range exactly past the end of the store. -/
theorem State.fetch_eq_outOfRange {s : State} (halign : s.pc.toNat % 4 = 0)
    (hend : s.imem.length ≤ s.pc.toNat / 4) : s.fetch = .outOfRange := by
  rw [State.fetch, if_pos halign, Config.instrSlot, List.getElem?_eq_none hend]

/-! ### The parity of `pc` (R59, R60, R141) -/

/-- Narrowing keeps the parity. -/
theorem u32_even {t : Int} (h : t % 2 = 0) : (u32 t).toNat % 2 = 0 := by
  have hval := toNat_u32 t
  omega

theorem State.pcNext_even {s : State} (hpc : s.pc.toNat % 2 = 0) : s.pcNext % 2 = 0 := by
  rw [State.pcNext, Config.instrSlot]
  omega

theorem State.relativeTarget_even {n : Nat} {s : State} {offset : BitVec (n + 1)} (hpc : s.pc.toNat % 2 = 0)
    (h : evenOffset offset = true) : s.relativeTarget offset % 2 = 0 := by
  have hoffset := sext_even h
  rw [State.relativeTarget]
  omega

/-- R141: the target of `jalr` has bit 0 clear. -/
theorem State.indirectTarget_even (s : State) (rs1 : Reg) (imm : BitVec 12) :
    (s.indirectTarget rs1 imm).toNat % 2 = 0 := by
  rw [Nat.mod_two_eq_zero_iff_testBit_zero, BitVec.testBit_toNat, State.indirectTarget, BitVec.getLsbD_and]
  exact Bool.and_false _

/-- The instructions a word decodes to lead from an even `pc` to an even one. -/
theorem exec_pc_even {i : Instr} (hi : i.wellFormed = true) {s t : State} (hpc : s.pc.toNat % 2 = 0)
    (h : exec i s = .next t) : t.pc.toNat % 2 = 0 := by
  have hnext := u32_even (State.pcNext_even hpc)
  cases i with
  | halt | xor | blt | bge | bltu | unsupported =>
    cases h
    exact hpc
  | add | sub | or | srl | slt | and | addi =>
    cases h
    exact hnext
  | lw rd rs1 imm =>
    rcases execLw_cases rd rs1 imm s with ⟨v, -, hx⟩ | ⟨f, -, hx⟩ <;> cases hx.symm.trans h
    exact hnext
  | sw rs1 rs2 imm =>
    rcases execSw_cases rs1 rs2 imm s with ⟨m, -, hx⟩ | ⟨f, -, hx⟩ <;> cases hx.symm.trans h
    exact hnext
  | beq =>
    obtain ⟨heven, -⟩ := wellFormed_beq_iff.1 hi
    cases h
    rw [State.commit_pc]
    split_ifs
    · exact u32_even (State.relativeTarget_even hpc heven)
    · exact hnext
  | bne =>
    cases h
    rw [State.commit_pc]
    split_ifs
    · exact u32_even (State.relativeTarget_even hpc hi)
    · exact hnext
  | jal =>
    cases h
    exact u32_even (State.relativeTarget_even hpc hi)
  | jalr _ rd rs1 imm =>
    cases h
    rw [State.commit_pc, u32_toNat]
    exact s.indirectTarget_even rs1 imm

/-! ### What keeps the invariant -/

/-- Another status that is true of the word at `pc` keeps the invariant (R20, R168). -/
theorem State.Inv.setStatus {s : State} (h : s.Inv) {status : Status}
    (htrue : State.statusTrue { s with status := status }) : State.Inv { s with status := status } :=
  ⟨h.mem, h.regZero, h.pcEven, htrue, h.traceZero, h.traceLast⟩

/-- R30: the entry of the current state, appended, establishes the trace's part of the invariant. -/
theorem State.inv_appendTrace {s : State} (hmem : s.mem.wf) (hreg : s.regs[0] = 0#32)
    (hpc : s.pc.toNat % 2 = 0) (hstatus : s.statusTrue)
    (htrace : ∀ e ∈ s.trace, e.regs[0] = 0#32 ∧ e.pc.toNat % 2 = 0) : s.appendTrace.Inv := by
  refine ⟨hmem, hreg, hpc, hstatus, fun e he => ?_, .inr List.getLast?_concat⟩
  rcases List.mem_append.1 he with he | he
  · exact htrace e he
  · rw [List.mem_singleton.1 he]
    exact ⟨s.snapshot_zero, hpc⟩

/-- The status is true of every running state. -/
theorem State.statusTrue_of_running {s : State} (hs : s.status = .running) : s.statusTrue := by
  rw [State.statusTrue, hs]
  trivial

/-- A fetched word's meaning keeps the invariant. -/
theorem exec_decode_inv {s t : State} {w : InstrWord} (hinv : s.Inv) (hs : s.status = .running)
    (hf : s.fetch = .word w) (h : exec (decode w) s = .next t) : t.Inv := by
  have hpc := exec_pc_even (decode_encodes w).1 hinv.pcEven h
  rcases exec_cases (decode w) s with ⟨hw, hx⟩ | ⟨hop, hx⟩ | ⟨rd, v, target, -, hx⟩ |
    ⟨rs1, rs2, imm, m, -, hm, hx⟩ | ⟨f, hx⟩ <;> rw [hx] at h <;> cases h
  · rw [decode_eq_halt_iff] at hw
    have happend := State.inv_appendTrace hinv.mem hinv.regZero hinv.pcEven hinv.status hinv.traceZero
    exact happend.setStatus (hf.trans (congrArg FetchResult.word hw))
  · exact hinv.setStatus ⟨rfl, rfl, w, hf, (decode_op_eq_unsupported_iff w).1 hop⟩
  · refine State.inv_appendTrace ?_ ?_ hpc (State.statusTrue_of_running ?_) ?_
    · simpa using hinv.mem
    · simpa using hinv.regZero
    · simpa using hs
    · simpa using hinv.traceZero
  · exact State.inv_appendTrace (Memory.write_wf hinv.mem hm) hinv.regZero hpc
      (State.statusTrue_of_running hs) hinv.traceZero

/-- Settles O50: by the step's cases; a fetched word by what its meaning can answer. -/
theorem stepKeepsInvariant : Obligations.StepKeepsInvariant := by
  intro s t hinv h
  rcases step_cases s with ⟨-, he⟩ | ⟨-, -, he⟩ | ⟨-, hf, he⟩ | ⟨w, hs, hf, he⟩ <;> rw [he] at h
  · cases h
    exact hinv
  · cases h
  · cases h
    exact hinv.setStatus hf
  · exact exec_decode_inv hinv hs hf h

/-- Settles O13: each part of the invariant at the reset values; no part looks at the program. -/
theorem resetMeetsInvariant : Obligations.ResetMeetsInvariant := by
  have hboot : ∀ program : List InstrWord, (State.boot program).Inv := fun program =>
    ⟨State.reset_mem_wf, rfl, rfl, trivial, by simp [State.boot, State.reset], .inl rfl⟩
  exact ⟨hboot [], hboot⟩

end Sys2Proof.Machine
end

section
/-! ## What a completed instruction does: result, next `pc` and frame (R100 to R141) -/

namespace Sys2Proof.Machine

/-! ### Registers and misaligned addresses (R14, R41) -/

/-- Settles O15: what a read gives after the write, and the fields the write leaves. -/
theorem registerWriteMasks : Obligations.RegisterWriteMasks := by
  intro s i v hi
  refine ⟨?_, fun j hj => ?_, s.writeReg_pc i v, s.writeReg_status i v, s.writeReg_mem i v, s.writeReg_trace i v,
    s.writeReg_imem i v⟩
  · have hread : (s.writeReg i v).readReg i = u32 v := by
      rw [State.readReg_writeReg, if_pos rfl]
      exact if_neg hi
    rw [hread, toNat_u32]
  · rw [State.readReg_writeReg, if_neg hj]

/-- A read stops exactly at the misaligned addresses of the data region (R41, decision D5). -/
theorem Memory.read_eq_error_iff (m : Memory) (a : Word) (f : Fault) :
    m.read a = .error f ↔ f = .misalignedDataRegionAccess ∧ MisalignedData a := by
  by_cases ha : MisalignedData a
  · have hroute : route a = .misaligned := by
      obtain ⟨hr, h4⟩ := (misalignedData_iff a).1 ha
      rw [route, if_pos hr, if_neg h4]
    rw [Memory.read, hroute, Except.error.injEq, eq_comm]
    exact (and_iff_left ha).symm
  · rcases route_cases_of_not_misalignedData ha with ⟨k, hk⟩ | hs
    · simp [m.read_of_route_data hk, ha]
    · simp [m.read_of_route_stack hs, ha]

/-- A write stops exactly where a read does. -/
theorem Memory.write_eq_error_iff (m : Memory) (a : Word) (v : Int) (f : Fault) :
    m.write a v = .error f ↔ f = .misalignedDataRegionAccess ∧ MisalignedData a :=
  (m.read_error_iff_write_error a v f).symm.trans (m.read_eq_error_iff a f)

/-- Settles O17: the stop of a read and of a write, said for the one fault they raise. -/
theorem misalignedDataStops : Obligations.MisalignedDataStops := fun m a v =>
  ⟨(m.read_eq_error_iff a _).trans (and_iff_right rfl), (m.write_eq_error_iff a v _).trans (and_iff_right rfl)⟩

/-! ### The frames of a commit -/

/-- R19: the address of the next instruction, narrowed. -/
theorem u32_pcNext (s : State) : u32 s.pcNext = s.pc + 4 := by
  rw [State.pcNext, u32_add, u32_toNat]
  rfl

/-- R130, R140: a target relative to the instruction, narrowed. -/
theorem u32_relativeTarget {n : Nat} (s : State) (offset : BitVec n) :
    u32 (s.relativeTarget offset) = s.pc + offset.signExtend 32 := by
  rw [State.relativeTarget, u32_add, u32_toNat, u32_sext]

/-- R11: a source register's integer, narrowed, is what the register reads. -/
@[simp] theorem u32_regVal (s : State) (i : Reg) : u32 (s.regVal i) = s.readReg i := u32_toNat _

/-- R43: base plus sign-extended displacement. -/
theorem State.effectiveAddress_eq_signExtend (s : State) (rs1 : Reg) (imm : BitVec 12) :
    s.effectiveAddress rs1 imm = s.readReg rs1 + imm.signExtend 32 := by
  rw [State.effectiveAddress_eq_add, u32_sext]

/-- A commit after one register write is a register step. -/
theorem registerStep_commit (s : State) (rd : Reg) (v target : Int) :
    RegisterStep s ((s.writeReg rd v).commit target) rd (u32 v) (u32 target) where
  pc := rfl
  status := s.writeReg_status rd v
  imem := s.writeReg_imem rd v
  trace := by rw [State.commit_trace, State.writeReg_trace]
  dest := by rw [State.commit_readReg, State.readReg_writeReg, if_pos rfl]
  others r hr := by rw [State.commit_readReg, State.readReg_writeReg, if_neg hr]
  mem a := by rw [State.commit_mem, State.writeReg_mem]

/-- A commit with no write before it is a quiet step. -/
theorem quietStep_commit (s : State) (target : Int) : QuietStep s (s.commit target) (u32 target) :=
  ⟨⟨rfl, rfl, rfl, rfl⟩, fun _ => rfl, fun _ => rfl⟩

/-- A commit after a write of a canonical memory is a store step. -/
theorem storeStep_commit {s : State} {m : Memory} {a : Word} {v : Int} (hwf : s.mem.wf) (ha : ¬ MisalignedData a)
    (hw : s.mem.write a v = .ok m) (target : Int) :
    StoreStep s ((s.withMem m).commit target) a (u32 v) (u32 target) :=
  ⟨⟨rfl, rfl, rfl, rfl⟩, fun _ => rfl, Memory.read_write_same hwf ha hw,
    fun _ hb => Memory.read_write_other ha hb hw⟩

/-- R100: writing a result back is a register step to the next instruction. -/
theorem writeBack_registerStep {s : State} {v : Int} {x : Word} (h : u32 v = x) (rd : Reg) :
    ∃ t, writeBack rd v s = .next t ∧ RegisterStep s t rd x (s.pc + 4) := by
  subst h
  exact ⟨_, writeBack_eq rd v s, u32_pcNext s ▸ registerStep_commit s rd v s.pcNext⟩

/-! ### The ALU (R101 to R110) -/

/-- Settles O21: the sum, narrowed, is the word sum. -/
theorem addResult : Obligations.AddResult := fun rd rs1 rs2 s =>
  writeBack_registerStep (by rw [u32_add, u32_regVal, u32_regVal]) rd

/-- Settles O22: the difference, narrowed, is the word difference. -/
theorem subResult : Obligations.SubResult := fun rd rs1 rs2 s =>
  writeBack_registerStep (by rw [u32_sub, u32_regVal, u32_regVal]) rd

/-- Settles O23: a word's value, narrowed, is the word. -/
theorem orAndResult : Obligations.OrAndResult := fun rd _ _ _ =>
  ⟨writeBack_registerStep (u32_toNat _) rd, writeBack_registerStep (u32_toNat _) rd⟩

/-- R104: the quotient by the shift's power of two, narrowed, is the logical shift. -/
theorem u32_div_two_pow_shiftAmount (a b : Word) :
    u32 ((a.toNat : Int) / 2 ^ shiftAmount b) = a >>> (b.toNat % 32) := by
  have hmask : (b &&& 31#32).toNat = b.toNat % 32 := by
    rw [BitVec.toNat_and]
    exact Nat.and_two_pow_sub_one_eq_mod b.toNat 5
  rw [← ushiftRight_and_31, u32_toNat, BitVec.ushiftRight_eq', hmask]

/-- Settles O24: the quotient is the logical shift. -/
theorem srlResult : Obligations.SrlResult := fun rd _ _ _ =>
  writeBack_registerStep (u32_div_two_pow_shiftAmount _ _) rd

/-- The signed reading of a word is the two's-complement one. -/
theorem s32_eq_toInt (w : Word) : s32 w = w.toInt := by
  rw [s32, BitVec.toInt_eq_toNat_cond]
  simp only [Config.xlen]
  split_ifs <;> omega

/-- R105: the reading with `SLT_SIGNED = false`. -/
theorem sltLess_false (a b : Word) : sltLess false a b = a.ult b := rfl

/-- R105: the reading with `SLT_SIGNED = true`. -/
theorem sltLess_true (a b : Word) : sltLess true a b = a.slt b := by
  rw [sltLess, if_pos rfl, s32_eq_toInt, s32_eq_toInt, BitVec.slt]

/-- Settles O26: the signed order is the unsigned one, turned round where the sign bits differ. -/
theorem sltReadings : Obligations.SltReadings := by
  intro a b
  refine ⟨sltLess_false a b, sltLess_true a b, ?_⟩
  rw [sltLess_false, sltLess_true, BitVec.slt_eq_ult]
  cases a.msb <;> cases b.msb <;> simp

/-- Settles O25: the configured reading, narrowed. (The name `sltResult` is the model's own.) -/
theorem slt_result : Obligations.SltResult := fun rd rs1 rs2 s => by
  refine writeBack_registerStep ?_ rd
  rw [sltResult, Config.sltSigned, sltLess_false]
  split_ifs <;> rfl

/-- Settles O27: the sum with the sign-extended immediate, narrowed. -/
theorem addiResult : Obligations.AddiResult := fun rd rs1 imm s =>
  writeBack_registerStep (by rw [u32_add, u32_regVal, u32_sext]) rd

/-! ### Load and store (R120, R121) -/

/-- Off the misaligned addresses of the data region a read answers a word. -/
theorem Memory.read_ok_of_not_misalignedData (m : Memory) {a : Word} (ha : ¬ MisalignedData a) :
    ∃ v, m.read a = .ok v := by
  cases h : m.read a with
  | ok v => exact ⟨v, rfl⟩
  | error f => exact absurd ((m.read_eq_error_iff a f).1 h).2 ha

/-- R120: a load of a readable cell. -/
theorem execLw_of_read {s : State} {rs1 : Reg} {imm : BitVec 12} {v : Word}
    (h : s.mem.read (s.effectiveAddress rs1 imm) = .ok v) (rd : Reg) :
    execLw rd rs1 imm s = writeBack rd v.toNat s := by
  rw [execLw, h]

/-- R121: a store to a writable cell. -/
theorem execSw_of_write {s : State} {rs1 rs2 : Reg} {imm : BitVec 12} {m : Memory}
    (h : s.mem.write (s.effectiveAddress rs1 imm) (s.regVal rs2) = .ok m) :
    execSw rs1 rs2 imm s = .next ((s.withMem m).commit s.pcNext) := by
  rw [execSw, h]

/-- Settles O28: the read answers a word, which is written back. -/
theorem lwResult : Obligations.LwResult := by
  intro rd rs1 imm s ha
  obtain ⟨v, hv⟩ := s.mem.read_ok_of_not_misalignedData ha
  obtain ⟨t, ht, hstep⟩ := writeBack_registerStep (s := s) (u32_toNat v) rd
  exact ⟨t, v, hv, (execLw_of_read hv rd).trans ht, hstep⟩

/-- Settles O29: the write succeeds, and its commit is a store step. -/
theorem swResult : Obligations.SwResult := by
  intro rs1 rs2 imm s hwf ha
  obtain ⟨m, hm⟩ := s.mem.write_ok_of_not_misalignedData (s.regVal rs2) ha
  refine ⟨_, execSw_of_write hm, Memory.write_wf hwf hm, ?_⟩
  simpa only [u32_regVal, u32_pcNext] using storeStep_commit hwf ha hm s.pcNext

/-- A load stops exactly where its read does. -/
theorem execLw_eq_fault_iff {rd rs1 : Reg} {imm : BitVec 12} {s : State} {f : Fault} :
    execLw rd rs1 imm s = .fault f ↔
      f = .misalignedDataRegionAccess ∧ MisalignedData (s.effectiveAddress rs1 imm) := by
  rw [← s.mem.read_eq_error_iff]
  rcases execLw_cases rd rs1 imm s with ⟨v, hm, hx⟩ | ⟨f, hm, hx⟩ <;> simp [hm, hx]

/-- A store stops exactly where its write does. -/
theorem execSw_eq_fault_iff {rs1 rs2 : Reg} {imm : BitVec 12} {s : State} {f : Fault} :
    execSw rs1 rs2 imm s = .fault f ↔
      f = .misalignedDataRegionAccess ∧ MisalignedData (s.effectiveAddress rs1 imm) := by
  rw [← s.mem.write_eq_error_iff _ (s.regVal rs2)]
  rcases execSw_cases rs1 rs2 imm s with ⟨v, hm, hx⟩ | ⟨f, hm, hx⟩ <;> simp [hm, hx]

/-- Settles O30: the address by the word sum, the stops by those of the read and the write. -/
theorem loadStoreAddressAndStops : Obligations.LoadStoreAddressAndStops := fun _ rs1 _ imm s =>
  ⟨s.effectiveAddress_eq_signExtend rs1 imm, execLw_eq_fault_iff.trans (and_iff_right rfl),
    execSw_eq_fault_iff.trans (and_iff_right rfl)⟩

/-- Settles O31: the store leaves the registers, so the load's address is the stored one. -/
theorem loadAfterStore : Obligations.LoadAfterStore := by
  intro rs1 rs2 rd rs1' imm imm' s hwf ha haddr
  obtain ⟨t, ht, -, hstore⟩ := swResult rs1 rs2 imm s hwf ha
  have haddr' : t.effectiveAddress rs1' imm' = s.effectiveAddress rs1 imm := by
    rw [← haddr, State.effectiveAddress_eq_add, State.effectiveAddress_eq_add, hstore.regs]
  obtain ⟨u, v, hv, hu, hload⟩ := lwResult rd rs1' imm' t (haddr' ▸ ha)
  rw [haddr', hstore.stored, Except.ok.injEq] at hv
  exact ⟨t, u, ht, hu, hv ▸ hload.dest⟩

/-! ### Branches and jumps (R130, R131, R140, R141) -/

/-- Both outcomes of a conditional branch. -/
theorem branch_quietStep {taken : Bool} {p : Prop} [Decidable p] (h : taken = true ↔ p) (offset : BitVec 13)
    (s : State) : ∃ t, branch taken offset s = .next t ∧
      QuietStep s t (if p then s.pc + offset.signExtend 32 else s.pc + 4) := by
  refine ⟨_, rfl, ?_⟩
  rw [← u32_relativeTarget, ← u32_pcNext, ← apply_ite u32, ← if_congr h rfl rfl]
  exact quietStep_commit s _

/-- Settles O32: the two outcomes of a branch, taken on equal and on unequal values. -/
theorem branchResult : Obligations.BranchResult := by
  intro rs1 rs2 offset s
  have hbne := branch_quietStep (not_equalRegs_iff (a := s.readReg rs1) (b := s.readReg rs2)) offset s
  rw [ite_not] at hbne
  exact ⟨branch_quietStep equalRegs_iff offset s, hbne⟩

/-- Settles O34: link and target, both narrowed. -/
theorem jalResult : Obligations.JalResult := by
  intro rd offset s
  have hstep := registerStep_commit s rd s.pcNext (s.relativeTarget offset)
  rw [u32_pcNext, u32_relativeTarget] at hstep
  exact ⟨_, rfl, hstep⟩

/-- R141: the target of `jalr` by the word sum. -/
theorem State.indirectTarget_eq (s : State) (rs1 : Reg) (imm : BitVec 12) :
    s.indirectTarget rs1 imm = (s.readReg rs1 + imm.signExtend 32) &&& 0xFFFFFFFE#32 := by
  rw [State.indirectTarget, u32_add, u32_regVal, u32_sext]

/-- Settles O35: the target is taken from the state before the link is written. -/
theorem jalrResult : Obligations.JalrResult := by
  intro f3 rd rs1 imm s
  have hstep := registerStep_commit s rd s.pcNext (s.indirectTarget rs1 imm).toNat
  rw [u32_pcNext, u32_toNat] at hstep
  exact ⟨_, rfl, s.indirectTarget_eq rs1 imm ▸ hstep⟩

end Sys2Proof.Machine
end

section
/-! ## What a step does, case by case (R16, R20, R165 to R171, R193) -/

namespace Sys2Proof.Machine

/-! ### The fetched word's step (R133, R168, R193) -/

/-- Settles O40: a step on a fetched word is that word's meaning. -/
theorem stepRunsDecoded : Obligations.StepRunsDecoded :=
  fun _ _ hs halign hw => step_of_fetch hs (State.fetch_of_imem halign hw)

/-- Settles O37: each of the five rows has no operation. -/
theorem fatalEntry : Obligations.FatalEntry := by
  intro rd rs1 rs2 offset w s
  have hfatal : ∀ i : Instr, i.op = .UNSUPPORTED → exec i s = .next s.afterFatal := fun _ h =>
    exec_of_op_eq_unsupported h s
  exact ⟨hfatal _ rfl, hfatal _ rfl, hfatal _ rfl, hfatal _ rfl, hfatal _ rfl⟩

/-- Settles O39: such a branch word has no operation, so it is illegal. -/
theorem otherBranchesAreFatal : Obligations.OtherBranchesAreFatal := by
  intro s w hs halign hw hop hbeq hbne
  have hillegal : illegalWord w = true := by
    rw [← decode_op_eq_unsupported_iff, decode_op_branch hop (ne_haltWord_of_funct3 hbeq)]
    exact (if_neg hbeq).trans (if_neg hbne)
  exact (fatalDependsOnTheWordAlone s w hs halign hw).1 hillegal

/-- A placed word stands at its index. -/
theorem getElem?_placeWord (ws : List InstrWord) (i : Nat) (w : InstrWord) : (placeWord ws i w)[i]? = some w := by
  induction ws, i, w using placeWord.induct with
  | case1 | case2 => rfl
  | case3 i w ih | case4 x ws i w ih => exact ih

/-- R50: a table word of 32 bits is the word of its bits. -/
theorem tableWord_of_lt {w : Nat} (h : w < 2 ^ 32) : tableWord 32 w = BitVec.ofNat 32 w := by
  rw [tableWord, Nat.mod_eq_of_lt h]

/-- Settles O41: the placed word is fetched, and only the store is written. -/
theorem placedWordRuns : Obligations.PlacedWordRuns := by
  intro s w hs halign hw
  have hf : (s.withFetchWord 32 w).fetch = .word (tableWord 32 w) :=
    State.fetch_of_imem halign (getElem?_placeWord s.imem _ _)
  have htable := tableWord_of_lt hw
  exact ⟨congrArg (fun x => some (decode x)) htable, htable ▸ step_of_fetch hs hf, rfl⟩

/-! ### No word fetched, and no step taken (R18, R20, R23, R171) -/

/-- A running state takes the step of its fetch. -/
theorem step_of_running {s : State} (hs : s.status = .running) : step s = runningStep s := by
  rw [step, cycle, hs]

/-- A state that is not running steps to itself (decision D20). -/
theorem step_of_not_running {s : State} (hs : s.status ≠ .running) : step s = .next s := by
  rcases step_cases s with ⟨-, he⟩ | ⟨hrun, -⟩ | ⟨hrun, -⟩ | ⟨w, hrun, -⟩
  · exact he
  all_goals exact absurd hrun hs

/-- Settles O42: the two results of the fetch that are no word. -/
theorem fetchStopsAndEnds : Obligations.FetchStopsAndEnds := by
  intro s hs
  rw [step_of_running hs, runningStep]
  refine ⟨fun halign => ?_, fun halign hend => ?_⟩
  · rw [s.fetch_eq_misaligned_iff.2 halign]
  · rw [State.fetch_eq_outOfRange halign hend]
    rfl

/-- A run from a state that is not running takes no step. -/
theorem runFuel_of_not_running {s : State} (hs : s.status ≠ .running) (n : Nat) :
    runFuel n s = (endOfStatus s.status, s) := by
  cases n with
  | zero => rfl
  | succ n =>
    rw [runFuel]
    cases h : s.status with
    | running => exact absurd h hs
    | halted | fatal => rfl

/-- Settles O43: neither a step nor a run leaves such a state. -/
theorem terminalStatesAbsorb : Obligations.TerminalStatesAbsorb := fun _ hs =>
  ⟨step_of_not_running hs, fun n => congrArg Prod.snd (runFuel_of_not_running hs n)⟩

/-! ### Where a step stops (R165, R167) -/

/-- A meaning stops only as a load or a store at a misaligned address of the data region. -/
theorem exec_eq_fault {i : Instr} {s : State} {f : Fault} (h : exec i s = .fault f) :
    f = .misalignedDataRegionAccess ∧ ∃ rs1 imm, MisalignedData (s.effectiveAddress rs1 imm) ∧
      ((∃ rd, i = .lw rd rs1 imm) ∨ ∃ rs2, i = .sw rs1 rs2 imm) := by
  cases i with
  | lw rd rs1 imm =>
    obtain ⟨hf, ha⟩ := execLw_eq_fault_iff.1 h
    exact ⟨hf, rs1, imm, ha, .inl ⟨rd, rfl⟩⟩
  | sw rs1 rs2 imm =>
    obtain ⟨hf, ha⟩ := execSw_eq_fault_iff.1 h
    exact ⟨hf, rs1, imm, ha, .inr ⟨rs2, rfl⟩⟩
  | _ => cases h

/-- No meaning refuses. -/
theorem exec_ne_refused (i : Instr) (s : State) (r : Refusal) : exec i s ≠ .refused r := by
  rcases exec_cases i s with ⟨-, hx⟩ | ⟨-, hx⟩ | ⟨rd, v, pc, -, hx⟩ | ⟨rs1, rs2, imm, m, -, -, hx⟩ | ⟨f, hx⟩ <;>
    rw [hx] <;> nofun

/-- No step refuses. -/
theorem step_ne_refused (s : State) (r : Refusal) : step s ≠ .refused r := by
  rcases step_cases s with ⟨-, he⟩ | ⟨-, -, he⟩ | ⟨-, -, he⟩ | ⟨w, -, -, he⟩ <;> rw [he]
  · nofun
  · nofun
  · nofun
  · exact exec_ne_refused (decode w) s r

/-- Settles O44: a step stops at its fetch or in the fetched word's meaning. -/
theorem stepStopsOnlyWhereSaid : Obligations.StepStopsOnlyWhereSaid := by
  refine fun s => ⟨step_ne_refused s, fun f h => ?_⟩
  rcases step_cases s with ⟨-, he⟩ | ⟨hs, hf, he⟩ | ⟨-, -, he⟩ | ⟨w, hs, hf, he⟩ <;> rw [he] at h
  · cases h
  · cases h
    exact ⟨hs, .inl ⟨rfl, s.fetch_eq_misaligned_iff.1 hf⟩⟩
  · cases h
  · obtain ⟨halign, hw⟩ := (s.fetch_eq_word_iff w).1 hf
    obtain ⟨rfl, rs1, imm, ha, hi⟩ := exec_eq_fault h
    exact ⟨hs, .inr ⟨rfl, halign, w, rs1, imm, hw, ha, hi⟩⟩

/-! ### Status and memory (R20, R46) -/

/-- Settles O45: the status of what each case of the step leaves. -/
theorem statusChangesOnlySo : Obligations.StatusChangesOnlySo := by
  intro s t h hne
  rcases step_cases s with ⟨-, he⟩ | ⟨-, -, he⟩ | ⟨hs, hf, he⟩ | ⟨w, hs, hf, he⟩ <;> rw [he] at h
  · cases h
    exact absurd rfl hne
  · cases h
  · cases h
    exact ⟨hs, .inr (.inl ⟨rfl, hf⟩)⟩
  · refine ⟨hs, ?_⟩
    rcases exec_cases (decode w) s with ⟨hw, hx⟩ | ⟨hop, hx⟩ | ⟨rd, v, pc, -, hx⟩ | ⟨rs1, rs2, imm, m, -, -, hx⟩ |
      ⟨f, hx⟩ <;> rw [hx] at h <;> cases h
    · exact .inl ⟨rfl, hf.trans (congrArg FetchResult.word ((decode_eq_halt_iff w).1 hw))⟩
    · exact .inr (.inr ⟨rfl, w, hf, (decode_op_eq_unsupported_iff w).1 hop⟩)
    · exact absurd (s.writeReg_status rd v) hne
    · exact absurd rfl hne

/-- Only `sw` writes memory. -/
theorem exec_mem_of_op_ne_sw {i : Instr} (hi : i.op ≠ .SW) {s t : State} (h : exec i s = .next t) :
    t.mem = s.mem := by
  rcases exec_cases i s with ⟨-, hx⟩ | ⟨-, hx⟩ | ⟨rd, v, pc, -, hx⟩ | ⟨rs1, rs2, imm, m, hsw, -, hx⟩ | ⟨f, hx⟩ <;>
    rw [hx] at h <;> cases h
  · rfl
  · rfl
  · exact s.writeReg_mem rd v
  · exact absurd (congrArg Instr.op hsw) hi

/-- Settles O48: a step without a fetched word keeps memory, and so does a meaning that is no store. -/
theorem onlySwWritesMemory : Obligations.OnlySwWritesMemory := by
  intro s t h hsw
  rcases step_cases s with ⟨-, he⟩ | ⟨-, -, he⟩ | ⟨-, -, he⟩ | ⟨w, -, hf, he⟩ <;> rw [he] at h
  · cases h
    rfl
  · cases h
  · cases h
    rfl
  · exact exec_mem_of_op_ne_sw (hsw w hf) h

/-! ### Registers read and written (R16) -/

/-- `s'` has the same `pc` and memory as `s` and agrees with it on the registers in `rs`. -/
structure State.Agrees (s s' : State) (rs : List Reg) : Prop where
  pc   : s'.pc = s.pc
  mem  : s'.mem = s.mem
  regs : ∀ r ∈ rs, s'.readReg r = s.readReg r

section Agrees

variable {s s' : State} {rs : List Reg} {r : Reg}

theorem State.Agrees.regVal_eq (h : s.Agrees s' rs) (hr : r ∈ rs) : s'.regVal r = s.regVal r := by
  rw [State.regVal, State.regVal, h.regs r hr]

theorem State.Agrees.pcNext_eq (h : s.Agrees s' rs) : s'.pcNext = s.pcNext := by
  rw [State.pcNext, State.pcNext, h.pc]

theorem State.Agrees.relativeTarget_eq {n : Nat} (h : s.Agrees s' rs) (offset : BitVec n) :
    s'.relativeTarget offset = s.relativeTarget offset := by
  rw [State.relativeTarget, State.relativeTarget, h.pc]

theorem State.Agrees.effectiveAddress_eq (h : s.Agrees s' rs) (hr : r ∈ rs) (imm : BitVec 12) :
    s'.effectiveAddress r imm = s.effectiveAddress r imm := by
  rw [State.effectiveAddress, State.effectiveAddress, h.regVal_eq hr]

theorem State.Agrees.indirectTarget_eq (h : s.Agrees s' rs) (hr : r ∈ rs) (imm : BitVec 12) :
    s'.indirectTarget r imm = s.indirectTarget r imm := by
  rw [State.indirectTarget, State.indirectTarget, h.regVal_eq hr]

end Agrees

/-- The outcomes of an instruction from two states, by what it does: both only end the run, both write one
value to the destination and commit one target, or both have one memory, no register written, and commit one
target. -/
inductive SameEffect (dest : Option Reg) (s s' : State) : (o o' : Host.Outcome State Fault Refusal) → Prop
  | halt (hd : dest = none) :
      SameEffect dest s s' (.next (s.appendTrace.halt .sentinel)) (.next (s'.appendTrace.halt .sentinel))
  | fatal (hd : dest = none) : SameEffect dest s s' (.next (s.takeFatal .unsupportedInstruction))
      (.next (s'.takeFatal .unsupportedInstruction))
  | register {rd : Reg} (v target : Int) (hd : dest = some rd) :
      SameEffect dest s s' (.next ((s.writeReg rd v).commit target)) (.next ((s'.writeReg rd v).commit target))
  | memory (m : Memory) (target : Int) (hd : dest = none) :
      SameEffect dest s s' (.next ((s.withMem m).commit target)) (.next ((s'.withMem m).commit target))
  | fault (f : Fault) : SameEffect dest s s' (.fault f) (.fault f)

section SameEffect

variable {s s' : State}

/-- A result written back from both states. -/
theorem SameEffect.writeBack {rd : Reg} {v v' : Int} (hpc : s'.pcNext = s.pcNext) (hv : v' = v) :
    SameEffect (some rd) s s' (writeBack rd v s) (writeBack rd v' s') := by
  rw [writeBack_eq, writeBack_eq, hpc, hv]
  exact .register v s.pcNext rfl

/-- A commit with no write before it, from both states. -/
theorem SameEffect.commit {target target' : Int} (hmem : s'.mem = s.mem) (htarget : target' = target) :
    SameEffect none s s' (.next (s.commit target)) (.next (s'.commit target')) := by
  subst htarget
  have hs : s.withMem s'.mem = s := by rw [hmem]; rfl
  exact hs ▸ .memory s'.mem target' rfl

/-- R16: from a state that agrees on the source registers an instruction does the same. -/
theorem exec_sameEffect (i : Instr) (h : s.Agrees s' i.sources) :
    SameEffect i.dest s s' (exec i s) (exec i s') := by
  cases i with
  | halt => exact .halt rfl
  | xor | blt | bge | bltu | unsupported => exact .fatal rfl
  | add rd rs1 rs2 | sub rd rs1 rs2 | or rd rs1 rs2 | srl rd rs1 rs2 | slt rd rs1 rs2 | and rd rs1 rs2 =>
    have hrs1 := h.regs rs1 List.mem_cons_self
    have hrs2 := h.regs rs2 (List.mem_cons_of_mem rs1 List.mem_cons_self)
    refine .writeBack h.pcNext_eq ?_
    simp only [State.regVal, hrs1, hrs2]
  | addi rd rs1 imm =>
    refine .writeBack h.pcNext_eq ?_
    rw [h.regVal_eq List.mem_cons_self]
  | lw rd rs1 imm =>
    have haddr := h.effectiveAddress_eq List.mem_cons_self imm
    simp only [exec, execLw, haddr, h.mem]
    cases s.mem.read (s.effectiveAddress rs1 imm) with
    | ok v => exact .writeBack h.pcNext_eq rfl
    | error f => exact .fault f
  | sw rs1 rs2 imm =>
    have haddr := h.effectiveAddress_eq List.mem_cons_self imm
    have hval := h.regVal_eq (List.mem_cons_of_mem rs1 List.mem_cons_self)
    simp only [exec, execSw, haddr, hval, h.mem, h.pcNext_eq]
    cases s.mem.write (s.effectiveAddress rs1 imm) (s.regVal rs2) with
    | ok m => exact .memory m s.pcNext rfl
    | error f => exact .fault f
  | beq rs1 rs2 offset | bne rs1 rs2 offset =>
    have hrs1 := h.regs rs1 List.mem_cons_self
    have hrs2 := h.regs rs2 (List.mem_cons_of_mem rs1 List.mem_cons_self)
    refine .commit h.mem ?_
    rw [hrs1, hrs2, h.relativeTarget_eq, h.pcNext_eq]
  | jal rd offset =>
    simp only [exec, execJal, h.pcNext_eq, h.relativeTarget_eq]
    exact .register s.pcNext (s.relativeTarget offset) rfl
  | jalr f3 rd rs1 imm =>
    simp only [exec, execJalr, h.pcNext_eq, h.indirectTarget_eq List.mem_cons_self]
    exact .register s.pcNext (s.indirectTarget rs1 imm).toNat rfl

/-- What the same effect on two states with one `pc` and one memory leaves: each register but the destination as
it was, and the same `pc`, memory and destination. -/
theorem SameEffect.registers {dest : Option Reg} {t : State} {o o' : Host.Outcome State Fault Refusal}
    (h : SameEffect dest s s' o o') (hpc : s'.pc = s.pc) (hmem : s'.mem = s.mem) (ho : o = .next t) :
    (∀ r, dest ≠ some r → t.readReg r = s.readReg r) ∧
      ∃ t', o' = .next t' ∧ t'.pc = t.pc ∧ t'.mem = t.mem ∧ ∀ r, dest = some r → t'.readReg r = t.readReg r := by
  cases h with
  | halt hd | fatal hd =>
    cases ho
    subst hd
    exact ⟨fun _ _ => rfl, _, rfl, hpc, hmem, nofun⟩
  | register v target hd =>
    cases ho
    subst hd
    refine ⟨fun r hr => ?_, _, rfl, rfl, by simpa using hmem, fun r hr => ?_⟩
    · have hne : r ≠ _ := fun heq => hr (congrArg some heq.symm)
      rw [State.commit_readReg, State.readReg_writeReg, if_neg hne]
    · cases hr
      simp [State.readReg_writeReg]
  | memory m target hd =>
    cases ho
    subst hd
    exact ⟨fun _ _ => rfl, _, rfl, rfl, rfl, nofun⟩
  | fault => cases ho

end SameEffect

/-- Settles O49: the two outcomes have one effect, and what an effect leaves. -/
theorem registersReadAndWritten : Obligations.RegistersReadAndWritten :=
  fun i _ _ _ hpc hmem hregs h => (exec_sameEffect i ⟨hpc, hmem, hregs⟩).registers hpc hmem h

end Sys2Proof.Machine
end

section
/-! ## Runs (R180, R194) -/

namespace Sys2Proof.Machine

/-! ### A run, step by step -/

section

variable {s t : State} (n : Nat)

theorem runFuel_succ_of_next (hs : s.status = .running) (h : step s = .next t) :
    runFuel (n + 1) s = runFuel n t := by
  rw [runFuel, hs, h]

theorem runFuel_succ_of_fault {f : Fault} (hs : s.status = .running) (h : step s = .fault f) :
    runFuel (n + 1) s = (.unspecified f, s) := by
  rw [runFuel, hs, h]

end

/-- A running state steps or stops. -/
theorem step_next_or_fault (s : State) : (∃ t, step s = .next t) ∨ ∃ f, step s = .fault f := by
  cases h : step s with
  | next t => exact .inl ⟨t, rfl⟩
  | fault f => exact .inr ⟨f, rfl⟩
  | refused r => exact absurd h (step_ne_refused s r)

theorem endOfStatus_eq_outOfFuel_iff {status : Status} : endOfStatus status = .outOfFuel ↔ status = .running := by
  cases status <;> simp [endOfStatus]

/-- A run ends as its last state's status says, or at the stop of its last state's step. -/
theorem runFuel_end (n : Nat) (s : State) :
    (runFuel n s).1 = endOfStatus (runFuel n s).2.status ∨
      (runFuel n s).2.status = .running ∧ ∃ f, (runFuel n s).1 = .unspecified f ∧ step (runFuel n s).2 = .fault f := by
  induction n generalizing s with
  | zero => exact .inl rfl
  | succ n ih =>
    by_cases hs : s.status = .running
    · rcases step_next_or_fault s with ⟨t, h⟩ | ⟨f, h⟩
      · rw [runFuel_succ_of_next n hs h]
        exact ih t
      · rw [runFuel_succ_of_fault n hs h]
        exact .inr ⟨hs, f, rfl, h⟩
    · rw [runFuel_of_not_running hs]
      exact .inl rfl

/-- A run that ended within its fuel ends the same with more. -/
theorem runFuel_add {n : Nat} {s : State} (h : (runFuel n s).1 ≠ .outOfFuel) (m : Nat) :
    runFuel (n + m) s = runFuel n s := by
  induction n generalizing s with
  | zero =>
    have hs : s.status ≠ .running := mt endOfStatus_eq_outOfFuel_iff.2 h
    rw [runFuel_of_not_running hs, runFuel_of_not_running hs]
  | succ n ih =>
    by_cases hs : s.status = .running
    · rw [Nat.succ_add]
      rcases step_next_or_fault s with ⟨t, ht⟩ | ⟨f, hf⟩
      · rw [runFuel_succ_of_next n hs ht] at h ⊢
        rw [runFuel_succ_of_next _ hs ht]
        exact ih h
      · rw [runFuel_succ_of_fault _ hs hf, runFuel_succ_of_fault _ hs hf]
    · rw [runFuel_of_not_running hs, runFuel_of_not_running hs]

/-- A run out of fuel started and is still running. -/
theorem runFuel_outOfFuel_status {n : Nat} {s : State} (h : (runFuel n s).1 = .outOfFuel) :
    s.status = .running ∧ (runFuel n s).2.status = .running := by
  constructor
  · by_contra hs
    rw [runFuel_of_not_running hs] at h
    exact hs (endOfStatus_eq_outOfFuel_iff.1 h)
  · rcases runFuel_end n s with hend | ⟨hs, -⟩
    · exact endOfStatus_eq_outOfFuel_iff.1 (hend.symm.trans h)
    · exact hs

/-- R30: a step from a running state to a running one appends one entry. -/
theorem step_trace_length {s t : State} (hs : s.status = .running) (ht : t.status = .running)
    (h : step s = .next t) : t.trace.length = s.trace.length + 1 := by
  rw [(step_trace h).1, if_pos ⟨hs, .inl ht⟩, List.length_append, List.length_singleton]

/-- A run out of fuel appended one entry per step. -/
theorem runFuel_outOfFuel_trace {n : Nat} {s : State} (h : (runFuel n s).1 = .outOfFuel) :
    (runFuel n s).2.trace.length = s.trace.length + n := by
  induction n generalizing s with
  | zero => rfl
  | succ n ih =>
    obtain ⟨hs, -⟩ := runFuel_outOfFuel_status h
    rcases step_next_or_fault s with ⟨t, ht⟩ | ⟨f, hf⟩
    · rw [runFuel_succ_of_next n hs ht] at h ⊢
      obtain ⟨hrun, -⟩ := runFuel_outOfFuel_status h
      rw [ih h, step_trace_length hs hrun ht]
      omega
    · rw [runFuel_succ_of_fault n hs hf] at h
      cases h

/-- Settles O52: more fuel on an ended run, and the status and trace of one out of fuel. -/
theorem fuelIsOnlyACap : Obligations.FuelIsOnlyACap := fun _ m _ =>
  ⟨fun h => runFuel_add h m, fun h => ⟨(runFuel_outOfFuel_status h).2, runFuel_outOfFuel_trace h⟩⟩

/-- Settles O53: by the end the last state's status stands for, or the stop. -/
theorem runEndMatchesStatus : Obligations.RunEndMatchesStatus := by
  intro n s
  rcases runFuel_end n s with hend | ⟨hs, f, hend, hf⟩
  · rw [hend]
    cases (runFuel n s).2.status <;> simp [endOfStatus]
  · rw [hend]
    refine ⟨nofun, nofun, fun f' h => ?_, nofun⟩
    cases h
    exact ⟨hs, hf⟩

end Sys2Proof.Machine
end

section
/-! ## The trace's texts and the loader's refusals (R31, R98) -/

namespace Sys2Proof.Machine

/-- R31: the binary text of a word is `0b` and its line, which reads back. -/
theorem binaryText_spec (w : Word) :
    wordOfLine ((binaryText w).drop 2) = some w ∧ (binaryText w).take 2 = ['0', 'b'] ∧ (binaryText w).length = 34 :=
  ⟨wordOfLine_wordLine w, rfl, by rw [binaryText, List.length_cons, List.length_cons, wordLine_length]⟩

/-- A binary entry is the texts of `pc` and the registers. -/
theorem Snapshot.binaryTexts_eq_map (e : Snapshot) : e.binaryTexts = (e.pc :: e.regs.toList).map binaryText := rfl

/-- R31: a decimal number reads back. -/
theorem parseInt_natText (n : Nat) : parseInt (natText n) = some (n : Int) := by
  rw [← intText_natCast, parseInt_intText]

/-- Settles O54: both entries text by text. -/
theorem traceTextsSpellTheSnapshot : Obligations.TraceTextsSpellTheSnapshot := by
  intro s e
  have hlength : e.regs.toList.length = 32 := e.regs.length_toList
  refine ⟨by simp [Snapshot.binaryTexts, hlength], by simp [Snapshot.decimalTexts, hlength],
    by simp [State.traceTexts], ?_, fun text htext => ?_, ?_⟩
  · rw [Snapshot.binaryTexts_eq_map, List.map_map, ← List.map_cons]
    exact List.map_congr_left fun w _ => (binaryText_spec w).1
  · rw [Snapshot.binaryTexts_eq_map] at htext
    obtain ⟨w, -, rfl⟩ := List.mem_map.1 htext
    exact (binaryText_spec w).2
  · rw [Snapshot.decimalTexts, List.map_cons, List.map_map, parseInt_natText]
    congr 1
    refine List.map_congr_left fun w _ => ?_
    rw [Function.comp_apply, parseInt_intText, s32_eq_toInt]

/-- A load that succeeds read each line that is not blank as its word. -/
theorem filter_of_loadFrom {n : Nat} {lines : List Text} {ws : List Word} (h : loadFrom n lines = .ok ws) :
    (lines.filter fun l => !isBlank l) = ws.map wordLine := by
  induction lines generalizing n ws with
  | nil =>
    cases h
    rfl
  | cons line lines ih =>
    rw [loadFrom] at h
    by_cases hblank : isBlank line = true
    · rw [if_pos hblank] at h
      rw [List.filter_cons_of_neg (by simp [hblank]), ih h]
    · rw [if_neg hblank] at h
      split_ifs at h with hlength
      split at h
      case h_1 w hw =>
        split at h <;> cases h
        case h_1 ws hws =>
          rw [List.filter_cons_of_pos (by simp [hblank]), ih hws, List.map_cons, ← wordLine_of_wordOfLine hlength hw]
      case h_2 => cases h

/-- Settles O56: along the lines, from the first line's number. -/
theorem loaderAcceptsOnlyBinaryLines : Obligations.LoaderAcceptsOnlyBinaryLines := fun _ _ => filter_of_loadFrom

end Sys2Proof.Machine
end

section
/-! ## The table's rows and the mnemonics (R51, R63 to R69, R82, R83) -/

namespace Sys2Proof

open Machine

/-! ### A word that matches a row has the row's fields -/

/-- A field whose bits a mask keeps is the same in the word and under the mask. -/
theorem extractLsb'_of_mask {w mask row : Word} {start len : Nat}
    (hmask : mask.extractLsb' start len = BitVec.allOnes len) (h : w &&& mask = row) :
    w.extractLsb' start len = row.extractLsb' start len := by
  rw [← h, BitVec.extractLsb'_and, hmask, BitVec.and_allOnes]

section

variable {w : Word} {f7 : BitVec 7} {f3 : BitVec 3} {op : BitVec 7}

/-- A word that matches a row of R-format is the row with the word's registers. -/
theorem placeR_of_row (h : w &&& 0xFE00707F#32 = placeR f7 0#5 0#5 f3 0#5 op) :
    placeR f7 (fieldRs2 w) (fieldRs1 w) f3 (fieldRd w) op = w := by
  obtain ⟨hop, hf3, hf7, -⟩ := fields_placeR f7 0#5 0#5 f3 0#5 op
  exact placeR_of_fields ((extractLsb'_of_mask (by decide) h).trans hop)
    ((extractLsb'_of_mask (by decide) h).trans hf3) ((extractLsb'_of_mask (by decide) h).trans hf7)

theorem placeI_of_row (h : w &&& 0x0000707F#32 = placeI 0#12 0#5 f3 0#5 op) :
    placeI (bitsImmI w) (fieldRs1 w) f3 (fieldRd w) op = w := by
  obtain ⟨hop, hf3, -⟩ := fields_placeI 0#12 0#5 f3 0#5 op
  exact placeI_of_fields ((extractLsb'_of_mask (by decide) h).trans hop)
    ((extractLsb'_of_mask (by decide) h).trans hf3)

theorem placeS_of_row (h : w &&& 0x0000707F#32 = placeS 0#12 0#5 0#5 f3 op) :
    placeS (bitsImmS w) (fieldRs2 w) (fieldRs1 w) f3 op = w := by
  obtain ⟨hop, hf3, -⟩ := fields_placeS 0#12 0#5 0#5 f3 op
  exact placeS_of_fields ((extractLsb'_of_mask (by decide) h).trans hop)
    ((extractLsb'_of_mask (by decide) h).trans hf3)

theorem placeB_of_row (h : w &&& 0x0000707F#32 = placeB 0#13 0#5 0#5 f3 op) :
    placeB (bitsImmB w) (fieldRs2 w) (fieldRs1 w) f3 op = w := by
  obtain ⟨hop, hf3, -⟩ := fields_placeB 0#13 0#5 0#5 f3 op
  exact placeB_of_fields ((extractLsb'_of_mask (by decide) h).trans hop)
    ((extractLsb'_of_mask (by decide) h).trans hf3)

/-- A word decodes to the instruction that stands for it. -/
theorem decode_of_encodes {i : Instr} (h : i.Encodes w) : decode w = i := by
  obtain ⟨hwf, rfl⟩ := h
  exact decodeEncodeRoundTrip i hwf

end

/-- Settles O7: the row's instruction with the word's operands stands for the word, by the row's format; the
`beq` row by the dispatch, since there the sentinel is excepted. -/
theorem tableRowsDecode : Obligations.TableRowsDecode := by
  intro w rd rs1 rs2
  have heven := evenOffset_bitsImmB w
  refine ⟨fun h => ?_, fun h => ?_, fun h => ?_, fun h => ?_, fun h => ?_, fun h => ?_, fun h => ?_, fun h => ?_,
    fun h => ?_, fun h hw => ?_, fun h => ?_, fun h => ?_, fun h => ?_, fun h => ?_, fun h => ?_, fun h => ?_,
    fun h => ?_⟩
  iterate 6 exact decode_of_encodes ⟨rfl, placeR_of_row (h.trans (by decide))⟩
  iterate 2 exact decode_of_encodes ⟨rfl, placeI_of_row (h.trans (by decide))⟩
  · exact decode_of_encodes ⟨rfl, placeS_of_row (h.trans (by decide))⟩
  · rw [decode_opcodeBranch (extractLsb'_of_mask (by decide) h) hw, decodeBranch]
    exact if_pos (extractLsb'_of_mask (by decide) h)
  · exact decode_of_encodes ⟨heven, placeB_of_row (h.trans (by decide))⟩
  · exact decode_opcodeJal (extractLsb'_of_mask (by decide) h)
  · exact decode_opcodeJalr (extractLsb'_of_mask (by decide) h)
  · exact decode_of_encodes ⟨rfl, placeR_of_row (h.trans (by decide))⟩
  iterate 3 exact decode_of_encodes ⟨heven, placeB_of_row (h.trans (by decide))⟩

/-- Settles O9: the decoder evaluates on each of the words. -/
theorem vectorWordsDecode : Obligations.VectorWordsDecode := by
  unfold Obligations.VectorWordsDecode
  decide

/-! ### The operation of a mnemonic's word (R82, R83) -/

namespace Machine

/-- The fixed fields of the words of an operand pattern (R83). -/
def AsmForm.Fits (w : InstrWord) : AsmForm → Prop
  | .r funct7 funct3 => fieldOpcode w = opcodeAlu ∧ fieldFunct3 w = funct3 ∧ fieldFunct7 w = funct7
  | .i funct3 opcode => fieldOpcode w = opcode ∧ fieldFunct3 w = funct3
  | .load => fieldOpcode w = opcodeLoad ∧ fieldFunct3 w = 0b010#3
  | .store => fieldOpcode w = opcodeStore ∧ fieldFunct3 w = 0b010#3
  | .b funct3 => fieldOpcode w = opcodeBranch ∧ fieldFunct3 w = funct3
  | .j => fieldOpcode w = opcodeJal

/-- R82, R83: a text that assembles starts with a mnemonic of the table, and its word fits the mnemonic's
pattern. -/
theorem asmText_fits {labels : Labels} {addr : Nat} {text : Text} {w : InstrWord}
    (h : asmText labels addr text = some w) :
    ∃ mnemonic operands form, tokens text = mnemonic :: operands ∧ (mnemonic, form) ∈ opcodeTable ∧ form.Fits w := by
  rw [asmText] at h
  cases htokens : tokens text with
  | nil =>
    rw [htokens] at h
    cases h
  | cons mnemonic operands =>
    rw [htokens] at h
    simp only at h
    cases hform : opcodeTable.lookup mnemonic with
    | none =>
      rw [hform] at h
      cases h
    | some form =>
      rw [hform] at h
      obtain ⟨before, after, htable, -⟩ := List.lookup_eq_some_iff.1 hform
      refine ⟨mnemonic, operands, form, rfl, by simp [htable], ?_⟩
      cases form <;> simp only [asmR, asmI, asmLoad, asmStore, asmB, asmJ] at h
      all_goals
        split at h
        · split at h <;> cases h
          simp [AsmForm.Fits]
        · cases h

/-- The operations the core decodes from the words of an operand pattern of the table: those of the pattern's
fixed fields, and for `beq` also the sentinel's. -/
def AsmForm.ops : AsmForm → List Op
  | .r funct7 funct3 => [(decodeAlu (placeR funct7 0#5 0#5 funct3 0#5 opcodeAlu)).op]
  | .i _ opcode => if opcode = opcodeJalr then [.JALR] else [.ADDI]
  | .load => [.LW]
  | .store => [.SW]
  | .b funct3 => if funct3 = 0b000#3 then [.BEQ, .HALT] else if funct3 = 0b001#3 then [.BNE] else [.UNSUPPORTED]
  | .j => [.JAL]

/-- The `i` patterns of the table are those of `addi` and `jalr`. -/
theorem opcodeTable_i {mnemonic : Text} {funct3 : BitVec 3} {opcode : BitVec 7}
    (h : (mnemonic, AsmForm.i funct3 opcode) ∈ opcodeTable) :
    funct3 = 0b000#3 ∧ (opcode = opcodeAluImm ∨ opcode = opcodeJalr) := by
  simp only [opcodeTable, List.cons_append, List.nil_append, List.mem_cons, Prod.mk.injEq, AsmForm.i.injEq,
    reduceCtorEq, and_false, false_or, or_false, List.not_mem_nil] at h
  tauto

/-- A word that fits a pattern of the table decodes to one of the pattern's operations. -/
theorem decode_op_mem_ops {mnemonic : Text} {form : AsmForm} {w : InstrWord} (hmem : (mnemonic, form) ∈ opcodeTable)
    (h : form.Fits w) : (decode w).op ∈ form.ops := by
  cases form with
  | r funct7 funct3 =>
    obtain ⟨hop, hf3, hf7⟩ := h
    rw [AsmForm.ops, List.mem_singleton, decode_opcodeAlu hop, decodeAlu, decodeAlu, hf3, hf7]
    simp only [fields_placeR]
    split_ifs <;> rfl
  | i funct3 opcode =>
    obtain ⟨hop, hf3⟩ := h
    obtain ⟨rfl, rfl | rfl⟩ := opcodeTable_i hmem
    · rw [decode_opcodeAluImm hop, decodeAluImm, if_pos hf3]
      exact List.mem_singleton_self Op.ADDI
    · rw [decode_opcodeJalr hop]
      exact List.mem_singleton_self Op.JALR
  | load =>
    obtain ⟨hop, hf3⟩ := h
    rw [decode_opcodeLoad hop, decodeLoad, if_pos hf3]
    exact List.mem_singleton_self Op.LW
  | store =>
    obtain ⟨hop, hf3⟩ := h
    rw [decode_opcodeStore hop, decodeStore, if_pos hf3]
    exact List.mem_singleton_self Op.SW
  | b funct3 =>
    obtain ⟨hop, hf3⟩ := h
    subst hf3
    by_cases hw : w = Config.haltWord
    · subst hw
      decide
    · rw [decode_op_branch hop hw, AsmForm.ops]
      split_ifs <;> simp
  | j =>
    rw [decode_opcodeJal h]
    exact List.mem_singleton_self Op.JAL

end Machine

/-- Settles O59: the text's mnemonic has a pattern and its word fits it; what is left is a closed fact about the
table's patterns. -/
theorem mnemonicsAndOperations : Obligations.MnemonicsAndOperations := by
  intro labels addr text w h
  obtain ⟨mnemonic, operands, form, htokens, hmem, hfits⟩ := asmText_fits h
  refine ⟨mnemonic, operands, htokens, ?_⟩
  refine (?table : ∀ entry ∈ opcodeTable, ∀ op ∈ entry.2.ops, (entry.1, op) ∈ (_ : List (Text × Op)))
    (mnemonic, form) hmem _ (decode_op_mem_ops hmem hfits)
  case table => decide

end Sys2Proof
end
